-- ==== Sys2Proof/Word.lean ====
section
/-! DEFINITION. The LKU's word types (00_scope.md R6, R7): 32-bit limbs and registers, 8-bit bytes. -/

namespace Sys2Proof

/-- A limb, a register, a command word: 32 bits, bit 0 least significant (R6 `LIMB_BITS`, R7). -/
abbrev Word := BitVec 32

/-- A byte of the register map (20_memory.md R50). -/
abbrev Byte := BitVec 8

end Sys2Proof
end

