-- ==== Sys2Proof/Config.lean ====
section
/-! DEFINITION. The implementation parameters of 00_scope.md R6 that the meanings use. The one OPEN parameter, `BASE`,
is `State.baseWord` (DESIGN CHOICE, notes/assumptions/3.md). The LKU leaves no result open, so no free value stands here. -/

namespace Sys2Proof.Config

/-- `MAX_SCALE` (R6). -/
abbrev maxScale : Nat := 28

/-- The largest index of the power-of-ten table, `POW10_ENTRIES - 1` (R6). -/
abbrev maxPow10 : Nat := 9

/-- `SHLN_MAX`, the largest multi-bit shift amount (R6). -/
abbrev maxShift : Nat := 32

/-- The exclusive bound of a mantissa, `2 ^ MANT_BITS` (R6). -/
abbrev mantissaLimit : Nat := 2 ^ 96

end Sys2Proof.Config
end

