-- ==== Sys2Proof/Syntax.lean ====
section
/-! DEFINITION. The commands of the LKU (30_encoding.md R71 to R74): one constructor for each of the eighteen rows of the
opcode table, with the fields its format leaves free. -/

namespace Sys2Proof

/-- A decimal register number: the fields RD and RS (10_state.md R22; 30_encoding.md R71). -/
inductive RegNum where
  | v0 | v1 | v2 | v3
deriving DecidableEq, Repr

/-- An operating length: the bits DL and SL (00_scope.md R9 `len`; 30_encoding.md R73). -/
inductive OpLen where
  | three | four
deriving DecidableEq, Repr

/-- The seven rounding strategies, STRAT codes 0 to 6 in this order (45_round.md R140). -/
inductive Strategy where
  | midpointNearestEven
  | midpointAwayFromZero
  | midpointTowardZero
  | toZero
  | awayFromZero
  | toPositiveInfinity
  | toNegativeInfinity
deriving DecidableEq, Repr

/-- A command. `imm` is the 8-bit unsigned immediate IMM (30_encoding.md R73), `ci` the carry-in bit CI. -/
inductive Instr where
  /-- ADD, 41_limb_add_sub.md R101. -/
  | add (rd rs : RegNum) (dl sl : OpLen)
  /-- ADDS, R102. -/
  | adds (rd : RegNum) (dl : OpLen)
  /-- INC, R103. -/
  | inc (rd : RegNum) (dl : OpLen)
  /-- SUB, R104. -/
  | sub (rd rs : RegNum) (dl sl : OpLen)
  /-- MULS, 42_limb_mul_div.md R111. -/
  | muls (rd : RegNum) (dl : OpLen)
  /-- MULP, R112. -/
  | mulp (rd : RegNum) (dl : OpLen) (imm : BitVec 8)
  /-- DIVS, R113. -/
  | divs (rd : RegNum) (dl : OpLen)
  /-- DIVP, R114. -/
  | divp (rd : RegNum) (dl : OpLen) (imm : BitVec 8)
  /-- SHL1, 43_limb_shift_compare.md R120. -/
  | shl1 (rd : RegNum) (dl : OpLen) (ci : Bool)
  /-- SHLN, R121. -/
  | shln (rd : RegNum) (dl : OpLen) (imm : BitVec 8)
  /-- CMP, R122. -/
  | cmp (rd rs : RegNum)
  /-- TSTZ, R123. -/
  | tstz (rd : RegNum) (dl : OpLen)
  /-- MOV, 40_representation.md R91. -/
  | mov (rd rs : RegNum) (dl : OpLen)
  /-- SETSCALE, R92. -/
  | setscale (rd : RegNum) (imm : BitVec 8)
  /-- NEG, R93. -/
  | neg (rd : RegNum)
  /-- RESCALE, 44_rescale_align.md R131. -/
  | rescale (rd : RegNum) (imm : BitVec 8)
  /-- ALIGN, R132. -/
  | align (rd rs : RegNum)
  /-- ROUND, 45_round.md R142. -/
  | round (rd : RegNum) (imm : BitVec 8) (strat : Strategy)
deriving DecidableEq, Repr

end Sys2Proof
end

