-- ==== Sys2Proof/WellFormed.lean ====
section
/-! DEFINITION. Which terms of `Instr` are commands: the field-value checks of 30_encoding.md R75 item 3. STRAT = 7 cannot
be written as a term (`Strategy` has seven values), and IMM above 28 in SETSCALE or RESCALE is no illegal encoding (R75). -/

namespace Sys2Proof

/-- The field-value checks of R75: MULP and DIVP take IMM 0 to 9, SHLN takes IMM 0 to 32. -/
def Instr.wellFormed : Instr → Bool
  | .mulp _ _ imm => decide (imm.toNat ≤ Config.maxPow10)
  | .divp _ _ imm => decide (imm.toNat ≤ Config.maxPow10)
  | .shln _ _ imm => decide (imm.toNat ≤ Config.maxShift)
  | .add _ _ _ _ => true
  | .adds _ _ => true
  | .inc _ _ => true
  | .sub _ _ _ _ => true
  | .muls _ _ => true
  | .divs _ _ => true
  | .shl1 _ _ _ => true
  | .cmp _ _ => true
  | .tstz _ _ => true
  | .mov _ _ _ => true
  | .setscale _ _ => true
  | .neg _ => true
  | .rescale _ _ => true
  | .align _ _ => true
  | .round _ _ _ => true

end Sys2Proof
end

