-- ==== Sys2Proof/Decode.lean ====
section
/-! DEFINITION. Byte order (20_memory.md R52), the opcode table (30_encoding.md R74), the decoder (R70, R71, R75), total on
every word and refusing by name, and the encoder (R71, R77). -/

namespace Sys2Proof

/-! ### Byte order -/

/-- The four bytes of a word, the byte at the lowest address first: byte `k` is `w[8k+7 : 8k]` (20_memory.md R52). -/
def bytesOfWord (w : Word) : List Byte :=
  [w.extractLsb' 0 8, w.extractLsb' 8 8, w.extractLsb' 16 8, w.extractLsb' 24 8]

/-- The word whose bytes these are, the byte at the lowest address first (R52). -/
def wordOfBytes (b0 b1 b2 b3 : Byte) : Word :=
  b0.setWidth 32 ||| b1.setWidth 32 <<< 8 ||| b2.setWidth 32 <<< 16 ||| b3.setWidth 32 <<< 24

/-! ### Fields of the command word (R71) -/

/-- Register numbers 0 to 3 (R71). -/
def RegNum.ofBits (b : BitVec 2) : RegNum :=
  if b = 0#2 then .v0 else if b = 1#2 then .v1 else if b = 2#2 then .v2 else .v3

/-- The number of a register (R71). -/
def RegNum.toBits : RegNum → BitVec 2
  | .v0 => 0#2
  | .v1 => 1#2
  | .v2 => 2#2
  | .v3 => 3#2

/-- DL and SL: 0 is three limbs, 1 is four (R71). -/
def OpLen.ofBit (b : Bool) : OpLen := if b then .four else .three

/-- The bit of an operating length (R71). -/
def OpLen.toBit : OpLen → BitVec 1
  | .three => 0#1
  | .four => 1#1

/-- The STRAT codes of 45_round.md R140; 7 is reserved. -/
def Strategy.ofBits (b : BitVec 3) : Option Strategy :=
  if b = 0#3 then some .midpointNearestEven
  else if b = 1#3 then some .midpointAwayFromZero
  else if b = 2#3 then some .midpointTowardZero
  else if b = 3#3 then some .toZero
  else if b = 4#3 then some .awayFromZero
  else if b = 5#3 then some .toPositiveInfinity
  else if b = 6#3 then some .toNegativeInfinity
  else none

/-- The STRAT code of a strategy (R140). -/
def Strategy.toBits : Strategy → BitVec 3
  | .midpointNearestEven => 0#3
  | .midpointAwayFromZero => 1#3
  | .midpointTowardZero => 2#3
  | .toZero => 3#3
  | .awayFromZero => 4#3
  | .toPositiveInfinity => 5#3
  | .toNegativeInfinity => 6#3

/-- OPC, bits 31:24. -/
def fieldOpc (w : Word) : BitVec 8 := w.extractLsb' 24 8

/-- RD, bits 23:22. -/
def fieldRd (w : Word) : RegNum := .ofBits (w.extractLsb' 22 2)

/-- RS, bits 21:20. -/
def fieldRs (w : Word) : RegNum := .ofBits (w.extractLsb' 20 2)

/-- DL, bit 19. -/
def fieldDl (w : Word) : OpLen := .ofBit (w.getLsbD 19)

/-- SL, bit 18. -/
def fieldSl (w : Word) : OpLen := .ofBit (w.getLsbD 18)

/-- CI, bit 16. -/
def fieldCi (w : Word) : Bool := w.getLsbD 16

/-- IMM, bits 15:8. -/
def fieldImm (w : Word) : BitVec 8 := w.extractLsb' 8 8

/-- STRAT, bits 2:0. -/
def fieldStrat (w : Word) : BitVec 3 := w.extractLsb' 0 3

/-! ### The opcode table (R74) -/

/-- The rows of the opcode table. -/
inductive Op where
  | add | adds | inc | sub | muls | mulp | divs | divp | shl1 | shln | cmp | tstz
  | mov | setscale | neg | rescale | align | round
deriving DecidableEq, Repr

/-- All rows, in the table's order. -/
def Op.all : List Op :=
  [.add, .adds, .inc, .sub, .muls, .mulp, .divs, .divp, .shl1, .shln, .cmp, .tstz,
   .mov, .setscale, .neg, .rescale, .align, .round]

/-- The column `match` of R74. -/
def Op.pattern : Op → Word
  | .add => 0x01000000#32
  | .adds => 0x02000000#32
  | .inc => 0x03000000#32
  | .sub => 0x04000000#32
  | .muls => 0x05000000#32
  | .mulp => 0x06000000#32
  | .divs => 0x07000000#32
  | .divp => 0x08000000#32
  | .shl1 => 0x09000000#32
  | .shln => 0x0A000000#32
  | .cmp => 0x0B000000#32
  | .tstz => 0x0C000000#32
  | .mov => 0x10000000#32
  | .setscale => 0x11000000#32
  | .neg => 0x12000000#32
  | .rescale => 0x20000000#32
  | .align => 0x21000000#32
  | .round => 0x22000000#32

/-- The column `mask` of R74. -/
def Op.mask : Op → Word
  | .add => 0xFF03FFFF#32
  | .adds => 0xFF37FFFF#32
  | .inc => 0xFF37FFFF#32
  | .sub => 0xFF03FFFF#32
  | .muls => 0xFF37FFFF#32
  | .mulp => 0xFF3700FF#32
  | .divs => 0xFF37FFFF#32
  | .divp => 0xFF3700FF#32
  | .shl1 => 0xFF36FFFF#32
  | .shln => 0xFF3700FF#32
  | .cmp => 0xFF0FFFFF#32
  | .tstz => 0xFF37FFFF#32
  | .mov => 0xFF07FFFF#32
  | .setscale => 0xFF3F00FF#32
  | .neg => 0xFF3FFFFF#32
  | .rescale => 0xFF3F00FF#32
  | .align => 0xFF0FFFFF#32
  | .round => 0xFF3F00F8#32

/-- The column OPC of R74: the opcode byte of the row's `match`. -/
def Op.opcode (o : Op) : BitVec 8 := o.pattern.extractLsb' 24 8

/-- The row of a command. -/
def Instr.op : Instr → Op
  | .add _ _ _ _ => .add
  | .adds _ _ => .adds
  | .inc _ _ => .inc
  | .sub _ _ _ _ => .sub
  | .muls _ _ => .muls
  | .mulp _ _ _ => .mulp
  | .divs _ _ => .divs
  | .divp _ _ _ => .divp
  | .shl1 _ _ _ => .shl1
  | .shln _ _ _ => .shln
  | .cmp _ _ => .cmp
  | .tstz _ _ => .tstz
  | .mov _ _ _ => .mov
  | .setscale _ _ => .setscale
  | .neg _ => .neg
  | .rescale _ _ => .rescale
  | .align _ _ => .align
  | .round _ _ _ => .round

/-- A word selects a row when `(w & mask) == match` (R74). -/
def Op.selects (o : Op) (w : Word) : Bool := w &&& o.mask == o.pattern

/-- Step 1 of R70: the row a word selects, if any. -/
def selectRow (w : Word) : Option Op := Op.all.find? (fun o => o.selects w)

/-! ### The decoder (R70) -/

/-- Why a word is no command (R75); each is the fault ILLEGAL_COMMAND. -/
inductive DecodeError where
  /-- R75 item 1: no row has this OPC. -/
  | unassignedOpcode (opc : BitVec 8)
  /-- R75 item 2: the row of this OPC has a must-be-zero field that is not zero. -/
  | mustBeZero (opc : BitVec 8)
  /-- R75 item 3: MULP or DIVP with IMM above 9. -/
  | tableIndex (imm : BitVec 8)
  /-- R75 item 3: SHLN with IMM above 32. -/
  | shiftAmount (imm : BitVec 8)
  /-- R75 item 3: ROUND with STRAT 7. -/
  | reservedStrategy
  /-- Not the four bytes of one command word (R70: every command is one 32-bit word). -/
  | notOneWord
deriving DecidableEq, Repr

/-- Steps 2 and 3 of R70: the fields of the row's format, and the row's field-value check. -/
def buildInstr (o : Op) (w : Word) : Except DecodeError Instr :=
  match o with
  | .add => .ok (.add (fieldRd w) (fieldRs w) (fieldDl w) (fieldSl w))
  | .adds => .ok (.adds (fieldRd w) (fieldDl w))
  | .inc => .ok (.inc (fieldRd w) (fieldDl w))
  | .sub => .ok (.sub (fieldRd w) (fieldRs w) (fieldDl w) (fieldSl w))
  | .muls => .ok (.muls (fieldRd w) (fieldDl w))
  | .mulp =>
    if (fieldImm w).toNat ≤ Config.maxPow10 then .ok (.mulp (fieldRd w) (fieldDl w) (fieldImm w))
    else .error (.tableIndex (fieldImm w))
  | .divs => .ok (.divs (fieldRd w) (fieldDl w))
  | .divp =>
    if (fieldImm w).toNat ≤ Config.maxPow10 then .ok (.divp (fieldRd w) (fieldDl w) (fieldImm w))
    else .error (.tableIndex (fieldImm w))
  | .shl1 => .ok (.shl1 (fieldRd w) (fieldDl w) (fieldCi w))
  | .shln =>
    if (fieldImm w).toNat ≤ Config.maxShift then .ok (.shln (fieldRd w) (fieldDl w) (fieldImm w))
    else .error (.shiftAmount (fieldImm w))
  | .cmp => .ok (.cmp (fieldRd w) (fieldRs w))
  | .tstz => .ok (.tstz (fieldRd w) (fieldDl w))
  | .mov => .ok (.mov (fieldRd w) (fieldRs w) (fieldDl w))
  | .setscale => .ok (.setscale (fieldRd w) (fieldImm w))
  | .neg => .ok (.neg (fieldRd w))
  | .rescale => .ok (.rescale (fieldRd w) (fieldImm w))
  | .align => .ok (.align (fieldRd w) (fieldRs w))
  | .round =>
    match Strategy.ofBits (fieldStrat w) with
    | some st => .ok (.round (fieldRd w) (fieldImm w) st)
    | none => .error .reservedStrategy

/-- Steps 1 to 3 of R70, on any word. -/
def decode (w : Word) : Except DecodeError Instr :=
  match selectRow w with
  | some o => buildInstr o w
  | none =>
    if Op.all.any (fun o => o.opcode == fieldOpc w) then .error (.mustBeZero (fieldOpc w))
    else .error (.unassignedOpcode (fieldOpc w))

/-- The decoder on any list of bytes: a command is the four bytes of one word in the byte order of 20_memory.md R52. -/
def decodeBytes (bs : List Byte) : Except DecodeError Instr :=
  match bs with
  | [b0, b1, b2, b3] => decode (wordOfBytes b0 b1 b2 b3)
  | _ => .error .notOneWord

/-- The host's question: the instruction decoded from `nbits` bits, the bits above them zero. A command has 32 bits. -/
def decodeTableWord (nbits w : Nat) : Option Instr :=
  if nbits ≤ 32 then
    match decodeBytes (bytesOfWord (BitVec.ofNat 32 (w % 2 ^ nbits))) with
    | .ok i => some i
    | .error _ => none
  else none

/-! ### The encoder (R71, R77) -/

/-- The command word from its fields (R77: `OPC << 24 | RD << 22 | RS << 20 | DL << 19 | SL << 18 | CI << 16 | IMM << 8 |
STRAT`); bits 17 and 7:3 are zero in every command (R71). -/
def packFields (opc : BitVec 8) (rd rs : BitVec 2) (dl sl ci : BitVec 1) (imm : BitVec 8) (strat : BitVec 3) : Word :=
  opc.setWidth 32 <<< 24 ||| rd.setWidth 32 <<< 22 ||| rs.setWidth 32 <<< 20 ||| dl.setWidth 32 <<< 19 |||
    sl.setWidth 32 <<< 18 ||| ci.setWidth 32 <<< 16 ||| imm.setWidth 32 <<< 8 ||| strat.setWidth 32

/-- The word of a command: the fields its format leaves free (R72), zero elsewhere. -/
def encode : Instr → Word
  | .add rd rs dl sl => packFields 0x01#8 rd.toBits rs.toBits dl.toBit sl.toBit 0#1 0#8 0#3
  | .adds rd dl => packFields 0x02#8 rd.toBits 0#2 dl.toBit 0#1 0#1 0#8 0#3
  | .inc rd dl => packFields 0x03#8 rd.toBits 0#2 dl.toBit 0#1 0#1 0#8 0#3
  | .sub rd rs dl sl => packFields 0x04#8 rd.toBits rs.toBits dl.toBit sl.toBit 0#1 0#8 0#3
  | .muls rd dl => packFields 0x05#8 rd.toBits 0#2 dl.toBit 0#1 0#1 0#8 0#3
  | .mulp rd dl imm => packFields 0x06#8 rd.toBits 0#2 dl.toBit 0#1 0#1 imm 0#3
  | .divs rd dl => packFields 0x07#8 rd.toBits 0#2 dl.toBit 0#1 0#1 0#8 0#3
  | .divp rd dl imm => packFields 0x08#8 rd.toBits 0#2 dl.toBit 0#1 0#1 imm 0#3
  | .shl1 rd dl ci => packFields 0x09#8 rd.toBits 0#2 dl.toBit 0#1 (BitVec.ofBool ci) 0#8 0#3
  | .shln rd dl imm => packFields 0x0A#8 rd.toBits 0#2 dl.toBit 0#1 0#1 imm 0#3
  | .cmp rd rs => packFields 0x0B#8 rd.toBits rs.toBits 0#1 0#1 0#1 0#8 0#3
  | .tstz rd dl => packFields 0x0C#8 rd.toBits 0#2 dl.toBit 0#1 0#1 0#8 0#3
  | .mov rd rs dl => packFields 0x10#8 rd.toBits rs.toBits dl.toBit 0#1 0#1 0#8 0#3
  | .setscale rd imm => packFields 0x11#8 rd.toBits 0#2 0#1 0#1 0#1 imm 0#3
  | .neg rd => packFields 0x12#8 rd.toBits 0#2 0#1 0#1 0#1 0#8 0#3
  | .rescale rd imm => packFields 0x20#8 rd.toBits 0#2 0#1 0#1 0#1 imm 0#3
  | .align rd rs => packFields 0x21#8 rd.toBits rs.toBits 0#1 0#1 0#1 0#8 0#3
  | .round rd imm strat => packFields 0x22#8 rd.toBits 0#2 0#1 0#1 0#1 imm strat.toBits

end Sys2Proof
end

