-- ==== Sys2Proof/Machine/State.lean ====
section
/-! DEFINITION. The state of one LKU and of the host's queue in front of it, as plain data (10_state.md R20 to R37), the
reasons a step could stop, and the state right after reset. -/

namespace Sys2Proof.Machine

/-- One decimal register (10_state.md R22): the flag word (SIGN in bit 31, SCALE in bits 23:16, R23) and four limbs, LO the
least significant; EXT is the transient fourth limb and no part of the decimal value. -/
structure DecReg where
  flags : Word
  lo : Word
  mid : Word
  hi : Word
  ext : Word
deriving DecidableEq, Repr

/-- What the outside does to the LKU, one event at a time: the host's bus transactions (00_scope.md R10; 20_memory.md R64)
and the platform's RESET (70_reset_and_hazards.md R190). A write carries its bytes in address order, so its width `n` is
their number (DEDUCED, notes/assumptions/5.md). -/
inductive HostEvent where
  /-- `MemRead(addr, n)`. -/
  | read (addr n : Nat)
  /-- `MemWrite(addr, n, v)`, `v` given as its `n` bytes, the byte for the lowest address first. -/
  | write (addr : Nat) (data : List Byte)
  /-- RESET asserted between two transactions. -/
  | reset
deriving DecidableEq, Repr

/-- How the bus answers a transaction (10_state.md R20: a step gives a response). -/
inductive Response where
  /-- A read returned these bytes, the byte at the lowest address first. -/
  | data (bytes : List Byte)
  /-- The bus accepted a write (whatever the LKU then did with it: 20_memory.md R56, R57). -/
  | written
  /-- `raise BusError(addr)`: the transaction was refused (60_exceptions.md R176). -/
  | busError (addr : Nat)
deriving DecidableEq, Repr

/-- The 24 words of 10_state.md R21, and three fields of the model's own: the platform's parameter `BASE` in words, the
host's events still to come, and the answers the bus has given so far, oldest first. -/
structure State where
  v0 : DecReg
  v1 : DecReg
  v2 : DecReg
  v3 : DecReg
  /-- The scalar operand register (R27). -/
  scl : Word
  /-- The flags, the error outcome and the sticky fault (R29). -/
  status : Word
  /-- The out-of-band value of the last completed command (R30). -/
  result : Word
  /-- The command word that raised the fault (R31). -/
  faultcmd : Word
  /-- `BASE / 4` (00_scope.md R6: `BASE` is a multiple of 4); no step changes it. The model's own. -/
  baseWord : Nat
  /-- The host's events still to come, the next one first. The model's own. -/
  pending : List HostEvent
  /-- The bus's answers so far, oldest first. The model's own. -/
  responses : List Response
deriving DecidableEq, Repr

/-- Reasons to stop with a fault: none. The LKU's fatal fault is a state it stays in, not the end of a run (60_exceptions.md
R172 to R174), and a BusError leaves the next transaction to proceed (R170): both are next states (DEDUCED,
notes/assumptions/10.md). Nobody raises a constructor of this type; that is safe, since nothing is lost. -/
inductive Fault where
deriving DecidableEq, Repr

/-- Reasons to refuse. -/
inductive Refusal where
  /-- An instruction that has no meaning yet; raised by a refused arm of `exec` only. Safe: nothing is claimed of it. -/
  | notModelled (mnemonic : String)
deriving DecidableEq, Repr

/-- What a step or a meaning answers. -/
abbrev StepOutcome : Type := Host.Outcome State Fault Refusal

/-- A register after reset: the canonical decimal zero, EXT zero (10_state.md R37). -/
def DecReg.zero : DecReg := { flags := 0#32, lo := 0#32, mid := 0#32, hi := 0#32, ext := 0#32 }

/-- The machine right after reset: all 24 words zero (10_state.md R37; 70_reset_and_hazards.md R190). The model's own
fields: `BASE` 0, no event queued, no answer given (DESIGN CHOICE, notes/assumptions/1.md, 2.md,
3.md). -/
def State.reset : State :=
  { v0 := DecReg.zero, v1 := DecReg.zero, v2 := DecReg.zero, v3 := DecReg.zero
    scl := 0#32, status := 0#32, result := 0#32, faultcmd := 0#32
    baseWord := 0, pending := [], responses := [] }

end Sys2Proof.Machine
end

