-- ==== Sys2Proof/Machine/Flags.lean ====
section
/-! DEFINITION. The STATUS register's fields (10_state.md R29) and the words its writers build: a normal completion (R33),
the error outcome (60_exceptions.md R175), a fault (R172). -/

namespace Sys2Proof.Machine

/-- The result of a comparison (43_limb_shift_compare.md R122); ORD's fourth code does not exist. -/
inductive CmpResult where
  | equal | less | greater
deriving DecidableEq, Repr

/-- ORD and RESULT codes: 0 Equal, 1 Less, 2 Greater (R122). -/
def CmpResult.code : CmpResult → Nat
  | .equal => 0
  | .less => 1
  | .greater => 2

/-- The fatal fault causes (60_exceptions.md R171). -/
inductive FaultCause where
  | illegalCommand | lengthMismatch | divideByZeroScalar
deriving DecidableEq, Repr

/-- FCAUSE codes (R171). -/
def FaultCause.code : FaultCause → BitVec 3
  | .illegalCommand => 1#3
  | .lengthMismatch => 2#3
  | .divideByZeroScalar => 3#3

/-- C, bit 0. -/
def statusC (w : Word) : Bool := w.getLsbD 0

/-- Z, bit 1. -/
def statusZ (w : Word) : Bool := w.getLsbD 1

/-- ORD, bits 3:2. -/
def statusOrd (w : Word) : BitVec 2 := w.extractLsb' 2 2

/-- RND, bit 4. -/
def statusRnd (w : Word) : Bool := w.getLsbD 4

/-- CAP, bit 5. -/
def statusCap (w : Word) : Bool := w.getLsbD 5

/-- ERR, bit 8. -/
def statusErr (w : Word) : Bool := w.getLsbD 8

/-- ECODE, bits 10:9. -/
def statusEcode (w : Word) : BitVec 2 := w.extractLsb' 9 2

/-- Bits 10:0, which every completed command and every error outcome rewrite as a whole (R29). -/
def statusLow (w : Word) : BitVec 11 := w.extractLsb' 0 11

/-- Bits 31:11, which neither a completion nor an error outcome writes (R29, R33; DEDUCED, notes/assumptions/14.md). -/
def statusHigh (w : Word) : BitVec 21 := w.extractLsb' 11 21

/-- FCAUSE, bits 30:28. -/
def statusFcause (w : Word) : BitVec 3 := w.extractLsb' 28 3

/-- FAULT, bit 31. -/
def statusFault (w : Word) : Bool := w.getLsbD 31

/-- The flag arguments of `complete`; an unspecified one is 0 (R33). -/
structure CompletionFlags where
  c : Bool := false
  ord : CmpResult := .equal
  rnd : Bool := false
  cap : Bool := false
deriving DecidableEq, Repr

/-- STATUS[10:0] of a normal completion (R33): C, Z, ORD, RND, CAP, and 0 in bits 10:6. -/
def completionBits (f : CompletionFlags) (z : Bool) : BitVec 11 :=
  (BitVec.ofBool f.c).setWidth 11 ||| (BitVec.ofBool z).setWidth 11 <<< 1 ||| BitVec.ofNat 11 f.ord.code <<< 2 |||
    (BitVec.ofBool f.rnd).setWidth 11 <<< 4 ||| (BitVec.ofBool f.cap).setWidth 11 <<< 5

/-- STATUS[10:0] of the error outcome INVALID_ARGUMENT: ERR = 1, ECODE = 1, every flag 0 (60_exceptions.md R175). -/
def errorBits : BitVec 11 := 0x300#11

/-- STATUS with bits 10:0 replaced. -/
def withLow (w : Word) (low : BitVec 11) : Word := (w &&& 0xFFFFF800#32) ||| low.setWidth 32

/-- STATUS at fault entry: bit 31 set, bits 30:28 the cause, bits 27:0 as before (60_exceptions.md R172). -/
def withFault (w : Word) (cause : FaultCause) : Word :=
  0x80000000#32 ||| cause.code.setWidth 32 <<< 28 ||| (w &&& 0x0FFFFFFF#32)

end Sys2Proof.Machine
end

