-- ==== Sys2Proof/Machine/Operands.lean ====
section
/-! DEFINITION. The operand forms of the commands: a decimal register by number, its limbs over an operating length, its sign
and scale, the scalar operands (00_scope.md R9; 30_encoding.md R73). -/

namespace Sys2Proof.Machine

/-- Decimal register `vi` (R9 `x[i]`). -/
def State.reg (s : State) : RegNum → DecReg
  | .v0 => s.v0
  | .v1 => s.v1
  | .v2 => s.v2
  | .v3 => s.v3

/-- The state with decimal register `vi` replaced. -/
def State.setReg (s : State) (i : RegNum) (d : DecReg) : State :=
  match i with
  | .v0 => { s with v0 := d }
  | .v1 => { s with v1 := d }
  | .v2 => { s with v2 := d }
  | .v3 => { s with v3 := d }

/-- The width in bits of a limb array: `32 n` (R8, R9 `len`). -/
def bitLen : OpLen → Nat
  | .three => 96
  | .four => 128

/-- The integer the limbs 0 to `n - 1` denote (R8, R9 `val`). -/
def DecReg.val (d : DecReg) : OpLen → Nat
  | .three => d.lo.toNat + 2 ^ 32 * d.mid.toNat + 2 ^ 64 * d.hi.toNat
  | .four => d.lo.toNat + 2 ^ 32 * d.mid.toNat + 2 ^ 64 * d.hi.toNat + 2 ^ 96 * d.ext.toNat

/-- The limbs 0 to `n - 1` take the integer `v`, the others stay (R9 `setval`; 41_limb_add_sub.md R100 item 1). -/
def DecReg.setVal (d : DecReg) (n : OpLen) (v : Nat) : DecReg :=
  match n with
  | .three =>
    { d with lo := BitVec.ofNat 32 v, mid := BitVec.ofNat 32 (v / 2 ^ 32), hi := BitVec.ofNat 32 (v / 2 ^ 64) }
  | .four =>
    { d with lo := BitVec.ofNat 32 v, mid := BitVec.ofNat 32 (v / 2 ^ 32), hi := BitVec.ofNat 32 (v / 2 ^ 64)
             ext := BitVec.ofNat 32 (v / 2 ^ 96) }

/-- SIGN, bit 31 of a flag word (10_state.md R23). -/
def flagSign (w : Word) : Bool := w.getLsbD 31

/-- SCALE, bits 23:16 of a flag word (R23). -/
def flagScale (w : Word) : Nat := (w.extractLsb' 16 8).toNat

/-- The flag word `(sg << 31) | (sc << 16)` of a sign and a scale, every reserved bit 0 (R9 `setfs`; a scale is below 256). -/
def packFlags (sg : Bool) (sc : Nat) : Word := (BitVec.ofBool sg).setWidth 32 <<< 31 ||| BitVec.ofNat 32 sc <<< 16

/-- A flag word the host may store: reserved bits zero and SCALE at most 28 (10_state.md R23; 20_memory.md R56). -/
def legalFlags (w : Word) : Bool :=
  w.extractLsb' 24 7 == 0#7 && w.extractLsb' 0 16 == 0#16 && decide (flagScale w ≤ Config.maxScale)

/-- `val(i, n)` (R9). -/
def State.val (s : State) (i : RegNum) (n : OpLen) : Nat := (s.reg i).val n

/-- `setval(i, n, v)` (R9). -/
def State.setVal (s : State) (i : RegNum) (n : OpLen) (v : Nat) : State := s.setReg i ((s.reg i).setVal n v)

/-- `sign(i)` (R9). -/
def State.sign (s : State) (i : RegNum) : Bool := flagSign (s.reg i).flags

/-- `scale(i)` (R9). -/
def State.scale (s : State) (i : RegNum) : Nat := flagScale (s.reg i).flags

/-- `x[i].FLAGS <- w` (R9). -/
def State.setFlags (s : State) (i : RegNum) (w : Word) : State := s.setReg i { s.reg i with flags := w }

/-- `setfs(i, sg, sc)` (R9). -/
def State.setFs (s : State) (i : RegNum) (sg : Bool) (sc : Nat) : State := s.setFlags i (packFlags sg sc)

/-- `is_all_zero(i, n)` (R9). -/
def State.isAllZero (s : State) (i : RegNum) (n : OpLen) : Bool := s.val i n == 0

/-- The constant table `POW10[0..9]` (10_state.md R36). -/
def pow10Table : List Nat :=
  [1, 10, 100, 1000, 10000, 100000, 1000000, 10000000, 100000000, 1000000000]

/-- `POW10[k]` (R9); the table has no entry above 9, and no command that runs asks for one (30_encoding.md R75). -/
def pow10 (k : Nat) : Nat := pow10Table.getD k 0

/-- The length pair of ADD and SUB that the document calls a violation: a value of 3 limbs, a source of 4
(41_limb_add_sub.md R100 item 4). -/
def lengthsMismatch (dl sl : OpLen) : Bool := dl == .three && sl == .four

end Sys2Proof.Machine
end

