-- ==== Sys2Proof/Machine/Ops.lean ====
section
/-! DEFINITION. The operations the commands share: normal completion (10_state.md R33), the error outcome (60_exceptions.md
R175), fault entry (R172) and the only way out of it, RESET (R174; 70_reset_and_hazards.md R190); the wrapped limb result of
the kernel (41_limb_add_sub.md R100 item 3) and its division; and the register map as a view of the registers (20_memory.md
R51, R52). -/

namespace Sys2Proof.Machine

/-! ### How a command ends -/

/-- `complete(rd, n, result, C, ORD, RND, CAP)` (10_state.md R33); Z is evaluated after the command's register writes. -/
def complete (rd : RegNum) (n : OpLen) (res : Nat) (f : CompletionFlags) (s : State) : State :=
  { s with result := BitVec.ofNat 32 res, status := withLow s.status (completionBits f (s.isAllZero rd n)) }

/-- `error InvalidArgument` (60_exceptions.md R175). -/
def errorInvalidArgument (s : State) : State :=
  { s with result := 0#32, status := withLow s.status errorBits }

/-- `raise Fault(cause)` for the command word `w` (60_exceptions.md R172): everything else keeps its value. -/
def raiseFault (cause : FaultCause) (w : Word) (s : State) : State :=
  { s with status := withFault s.status cause, faultcmd := w }

/-- RESET, the only way out of the faulted state (60_exceptions.md R174; 70_reset_and_hazards.md R190): every word of the
LKU takes its reset value. `BASE` and the host's side are not the LKU's (DEDUCED, notes/assumptions/9.md). -/
def applyReset (s : State) : State :=
  { State.reset with baseWord := s.baseWord, pending := s.pending, responses := s.responses }

/-- The faulted state: STATUS[31] = 1 (60_exceptions.md R173). -/
def State.faulted (s : State) : Bool := statusFault s.status

/-! ### The limb kernel -/

/-- A kernel result `t`: what fits the operating length goes to RD, what fell off goes to RESULT, and C says whether any of
it was non-zero (41_limb_add_sub.md R100 item 3; R101, R111, R121). -/
def storeWrapped (rd : RegNum) (n : OpLen) (t : Nat) (s : State) : State :=
  complete rd n (t / 2 ^ bitLen n) { c := t / 2 ^ bitLen n != 0 } (s.setVal rd n (t % 2 ^ bitLen n))

/-- Division by a scalar `k`: the quotient to RD, the remainder to RESULT, C = 0 (42_limb_mul_div.md R113). -/
def storeQuotient (rd : RegNum) (n : OpLen) (k : Nat) (s : State) : State :=
  complete rd n (s.val rd n % k) {} (s.setVal rd n (s.val rd n / k))

/-- Three-way comparison of two integers (43_limb_shift_compare.md R122). -/
def compareNat (a b : Nat) : CmpResult := if a = b then .equal else if a < b then .less else .greater

/-! ### The register map -/

/-- The words of the register map (20_memory.md R51). -/
inductive MapReg where
  | flags (i : RegNum)
  | lo (i : RegNum)
  | mid (i : RegNum)
  | hi (i : RegNum)
  | ext (i : RegNum)
  | scl
  | cmd
  | status
  | result
  | faultcmd
deriving DecidableEq, Repr

/-- The table of R51: the word at an offset from `BASE`. Every offset that is not a multiple of 4, or is above 0x60, is
none. -/
def mapRegAt (off : Nat) : Option MapReg :=
  match off with
  | 0x00 => some (.flags .v0)
  | 0x04 => some (.lo .v0)
  | 0x08 => some (.mid .v0)
  | 0x0C => some (.hi .v0)
  | 0x10 => some (.flags .v1)
  | 0x14 => some (.lo .v1)
  | 0x18 => some (.mid .v1)
  | 0x1C => some (.hi .v1)
  | 0x20 => some (.flags .v2)
  | 0x24 => some (.lo .v2)
  | 0x28 => some (.mid .v2)
  | 0x2C => some (.hi .v2)
  | 0x30 => some (.flags .v3)
  | 0x34 => some (.lo .v3)
  | 0x38 => some (.mid .v3)
  | 0x3C => some (.hi .v3)
  | 0x40 => some (.ext .v0)
  | 0x44 => some (.ext .v1)
  | 0x48 => some (.ext .v2)
  | 0x4C => some (.ext .v3)
  | 0x50 => some .scl
  | 0x54 => some .cmd
  | 0x58 => some .status
  | 0x5C => some .result
  | 0x60 => some .faultcmd
  | _ => none

/-- The offset of CMD (R51). -/
def cmdOffset : Nat := 0x54

/-- `BASE`: a multiple of 4 (00_scope.md R6). -/
def State.base (s : State) : Nat := 4 * s.baseWord

/-- The word of the map that an access of `n` bytes at `addr` names: only aligned 4-byte accesses inside the map name one
(20_memory.md R54). -/
def State.locate (s : State) (addr n : Nat) : Option MapReg :=
  if n = 4 ∧ addr % 4 = 0 ∧ s.base ≤ addr then mapRegAt (addr - s.base) else none

/-- The content of a word of the map; CMD holds nothing (20_memory.md R51; 10_state.md R28). -/
def State.readMap (s : State) : MapReg → Option Word
  | .flags i => some (s.reg i).flags
  | .lo i => some (s.reg i).lo
  | .mid i => some (s.reg i).mid
  | .hi i => some (s.reg i).hi
  | .ext i => some (s.reg i).ext
  | .scl => some s.scl
  | .cmd => none
  | .status => some s.status
  | .result => some s.result
  | .faultcmd => some s.faultcmd

/-- STATUS, RESULT and FAULTCMD are read-only to the host (20_memory.md R51, R55). -/
def MapReg.writable : MapReg → Bool
  | .status => false
  | .result => false
  | .faultcmd => false
  | .flags _ => true
  | .lo _ => true
  | .mid _ => true
  | .hi _ => true
  | .ext _ => true
  | .scl => true
  | .cmd => true

/-- One byte of the address space: byte `addr mod 4` of the word it lies in, in the byte order of R52; none where the host
can read nothing (outside the map, or in CMD). `BASE` is a multiple of 4. -/
def State.mapByte (s : State) (addr : Nat) : Option Byte :=
  match s.locate (addr / 4 * 4) 4 with
  | some m => (s.readMap m).map (fun w => w.extractLsb' (8 * (addr % 4)) 8)
  | none => none

end Sys2Proof.Machine
end

