-- ==== Sys2Proof/Machine/LimbAddSub.lean ====
section
/-! DEFINITION. Limb kernel, part 1: ADD, ADDS, INC, SUB (41_limb_add_sub.md R100 to R104). -/

namespace Sys2Proof.Machine

/-- ADD (R101): `val(RD, n) + val(RS, m)`, both read before any write; LENGTH_MISMATCH for the pair (3, 4). -/
def execAdd (rd rs : RegNum) (dl sl : OpLen) (s : State) : StepOutcome :=
  if lengthsMismatch dl sl then .next (raiseFault .lengthMismatch (encode (.add rd rs dl sl)) s)
  else .next (storeWrapped rd dl (s.val rd dl + s.val rs sl) s)

/-- ADDS (R102): the addend is SCL, zero-extended; no length fault (90_conflicts.md C4). -/
def execAdds (rd : RegNum) (dl : OpLen) (s : State) : StepOutcome :=
  .next (storeWrapped rd dl (s.val rd dl + s.scl.toNat) s)

/-- INC (R103). -/
def execInc (rd : RegNum) (dl : OpLen) (s : State) : StepOutcome :=
  .next (storeWrapped rd dl (s.val rd dl + 1) s)

/-- SUB (R104): two's-complement wrap over the operating length, the borrow in RESULT and C; LENGTH_MISMATCH for the pair
(3, 4) (R100 item 4). -/
def execSub (rd rs : RegNum) (dl sl : OpLen) (s : State) : StepOutcome :=
  if lengthsMismatch dl sl then .next (raiseFault .lengthMismatch (encode (.sub rd rs dl sl)) s)
  else
    let a := s.val rd dl
    let b := s.val rs sl
    .next (complete rd dl (if a < b then 1 else 0) { c := decide (a < b) }
      (s.setVal rd dl ((2 ^ bitLen dl + a - b) % 2 ^ bitLen dl)))

end Sys2Proof.Machine
end

