-- ==== Sys2Proof/Machine/LimbMulDiv.lean ====
section
/-! DEFINITION. Limb kernel, part 2: MULS, MULP, DIVS, DIVP (42_limb_mul_div.md R110 to R114). -/

namespace Sys2Proof.Machine

/-- MULS (R111): the scalar is SCL. -/
def execMuls (rd : RegNum) (dl : OpLen) (s : State) : StepOutcome :=
  .next (storeWrapped rd dl (s.val rd dl * s.scl.toNat) s)

/-- MULP (R112): the scalar is `POW10[IMM]`; IMM above 9 is an illegal command (30_encoding.md R75), which the decoder
refuses before this meaning is reached (DEDUCED, notes/assumptions/7.md). -/
def execMulp (rd : RegNum) (dl : OpLen) (imm : BitVec 8) (s : State) : StepOutcome :=
  if imm.toNat ≤ Config.maxPow10 then .next (storeWrapped rd dl (s.val rd dl * pow10 imm.toNat) s)
  else .next (raiseFault .illegalCommand (encode (.mulp rd dl imm)) s)

/-- DIVS (R113): a zero divisor is the fault DIVIDE_BY_ZERO_SCALAR and writes nothing else. -/
def execDivs (rd : RegNum) (dl : OpLen) (s : State) : StepOutcome :=
  if s.scl.toNat = 0 then .next (raiseFault .divideByZeroScalar (encode (.divs rd dl)) s)
  else .next (storeQuotient rd dl s.scl.toNat s)

/-- DIVP (R114): the divisor is `POW10[IMM]`, never 0; IMM above 9 as in MULP. -/
def execDivp (rd : RegNum) (dl : OpLen) (imm : BitVec 8) (s : State) : StepOutcome :=
  if imm.toNat ≤ Config.maxPow10 then .next (storeQuotient rd dl (pow10 imm.toNat) s)
  else .next (raiseFault .illegalCommand (encode (.divp rd dl imm)) s)

end Sys2Proof.Machine
end

