-- ==== Sys2Proof/Machine/LimbShiftCompare.lean ====
section
/-! DEFINITION. Limb kernel, part 3: SHL1, SHLN, CMP, TSTZ (43_limb_shift_compare.md R120 to R123). -/

namespace Sys2Proof.Machine

/-- SHL1 (R120): `(A << 1) | CI`. -/
def execShl1 (rd : RegNum) (dl : OpLen) (ci : Bool) (s : State) : StepOutcome :=
  .next (storeWrapped rd dl (s.val rd dl * 2 + ci.toNat) s)

/-- SHLN (R121): `A << N`; IMM above 32 is an illegal command (30_encoding.md R75; DEDUCED, notes/assumptions/7.md). -/
def execShln (rd : RegNum) (dl : OpLen) (imm : BitVec 8) (s : State) : StepOutcome :=
  if imm.toNat ≤ Config.maxShift then .next (storeWrapped rd dl (s.val rd dl * 2 ^ imm.toNat) s)
  else .next (raiseFault .illegalCommand (encode (.shln rd dl imm)) s)

/-- CMP (R122): the 96-bit integers, always three limbs; no register is written. -/
def execCmp (rd rs : RegNum) (s : State) : StepOutcome :=
  let ord := compareNat (s.val rd .three) (s.val rs .three)
  .next (complete rd .three ord.code { ord := ord } s)

/-- TSTZ (R123): RESULT is Z. -/
def execTstz (rd : RegNum) (dl : OpLen) (s : State) : StepOutcome :=
  .next (complete rd dl (s.isAllZero rd dl).toNat {} s)

end Sys2Proof.Machine
end

