-- ==== Sys2Proof/Machine/Representation.lean ====
section
/-! DEFINITION. The representation commands MOV, SETSCALE, NEG (40_representation.md R90 to R93). -/

namespace Sys2Proof.Machine

/-- MOV (R91): FLAGS and limbs 0 to `n - 1`, read before any write. -/
def execMov (rd rs : RegNum) (dl : OpLen) (s : State) : StepOutcome :=
  .next (complete rd dl 0 {} ((s.setFlags rd (s.reg rs).flags).setVal rd dl (s.val rs dl)))

/-- SETSCALE (R92): INVALID_ARGUMENT above 28, else the scale alone is written. -/
def execSetscale (rd : RegNum) (imm : BitVec 8) (s : State) : StepOutcome :=
  if Config.maxScale < imm.toNat then .next (errorInvalidArgument s)
  else .next (complete rd .three imm.toNat {} (s.setFs rd (s.sign rd) imm.toNat))

/-- NEG (R93): the sign flips, and a zero mantissa gets sign 0. -/
def execNeg (rd : RegNum) (s : State) : StepOutcome :=
  let ns := if s.isAllZero rd .three then false else !s.sign rd
  .next (complete rd .three ns.toNat {} (s.setFs rd ns (s.scale rd)))

end Sys2Proof.Machine
end

