-- ==== Sys2Proof/Machine/RescaleAlign.lean ====
section
/-! DEFINITION. The rescaler: `rescale_reg`, RESCALE and ALIGN (44_rescale_align.md R130 to R132), in the single steps of 10
that define the result (R134; 90_conflicts.md C1). -/

namespace Sys2Proof.Machine

/-- The reducing loop of R130: `d` divisions by 10 of `m`, `rem` the last remainder so far; none when the mantissa is
all-zero before a division. -/
def reduceDigits : Nat → Nat → Nat → Option (Nat × Nat)
  | 0, m, rem => some (m, rem)
  | d + 1, m, _ => if m = 0 then none else reduceDigits d (m / 10) (m % 10)

/-- The increasing loop of R130: at most `d` multiplications by 10 while the product fits 96 bits; the mantissa and the
steps left over. -/
def raiseDigits : Nat → Nat → Nat × Nat
  | 0, m => (m, 0)
  | d + 1, m => if m * 10 < Config.mantissaLimit then raiseDigits d (m * 10) else (m, d + 1)

/-- What `rescale_reg` leaves: the state and the pair `(rnd, cap)` (R130). -/
structure Rescaled where
  state : State
  rnd : Bool
  cap : Bool
deriving DecidableEq, Repr

/-- Round half up on the last remainder (R130): "if that remainder >= 5, add one to the limbs". -/
def halfUp (m rem : Nat) : Nat := if 5 ≤ rem then m + 1 else m

/-- The reducing branch of R130, for a scale above the target and a mantissa that is not zero. -/
def reduceReg (i : RegNum) (ts : Nat) (s : State) : Rescaled :=
  match reduceDigits (s.scale i - ts) (s.val i .three) 0 with
  | none => { state := (s.setVal i .three 0).setFs i false ts, rnd := false, cap := false }
  | some (m, rem) =>
    { state := (s.setVal i .three (halfUp m rem)).setFs i (halfUp m rem != 0 && s.sign i) ts
      rnd := decide (5 ≤ rem), cap := false }

/-- The increasing branch of R130, for a scale below the target and a mantissa that is not zero. -/
def raiseReg (i : RegNum) (ts : Nat) (s : State) : Rescaled :=
  let r := raiseDigits (ts - s.scale i) (s.val i .three)
  { state := (s.setVal i .three r.1).setFs i (s.sign i) (ts - r.2), rnd := false, cap := decide (0 < r.2) }

/-- `rescale_reg(i, ts)` (R130). -/
def rescaleReg (i : RegNum) (ts : Nat) (s : State) : Rescaled :=
  if s.scale i = ts then { state := s, rnd := false, cap := false }
  else if s.val i .three = 0 then { state := s.setFs i false ts, rnd := false, cap := false }
  else if ts < s.scale i then reduceReg i ts s
  else raiseReg i ts s

/-- RESCALE (R131): INVALID_ARGUMENT above 28; RESULT is the scale the register then has. -/
def execRescale (rd : RegNum) (imm : BitVec 8) (s : State) : StepOutcome :=
  if Config.maxScale < imm.toNat then .next (errorInvalidArgument s)
  else
    let r := rescaleReg rd imm.toNat s
    .next (complete rd .three (r.state.scale rd) { rnd := r.rnd, cap := r.cap } r.state)

/-- The two rescales of R132: raise the register with the smaller scale, and if that stopped early lower the other one. -/
def alignRegs (low high : RegNum) (s : State) : Rescaled :=
  let up := rescaleReg low (s.scale high) s
  if up.state.scale low < up.state.scale high then
    let down := rescaleReg high (up.state.scale low) up.state
    { state := down.state, rnd := down.rnd, cap := up.cap }
  else { state := up.state, rnd := false, cap := up.cap }

/-- ALIGN (R132): RD = RS and equal scales write no register; RESULT is the common scale. -/
def execAlign (rd rs : RegNum) (s : State) : StepOutcome :=
  let r : Rescaled :=
    if rd = rs ∨ s.scale rd = s.scale rs then { state := s, rnd := false, cap := false }
    else if s.scale rd < s.scale rs then alignRegs rd rs s
    else alignRegs rs rd s
  .next (complete rd .three (r.state.scale rd) { rnd := r.rnd, cap := r.cap } r.state)

end Sys2Proof.Machine
end

