-- ==== Sys2Proof/Machine/Round.lean ====
section
/-! DEFINITION. The rounding engine: ROUND under seven strategies (45_round.md R140 to R142). -/

namespace Sys2Proof.Machine

/-- Whether the engine rounds up (R140, R142): from the strategy, the sign, the truncated mantissa `t`, the discarded
remainder `r` and exactly half a unit in the last kept place. -/
def roundsUp (strat : Strategy) (sg : Bool) (t r half : Nat) : Bool :=
  match strat with
  | .midpointNearestEven => decide (half < r) || (r == half && t % 2 == 1)
  | .midpointAwayFromZero => decide (half ≤ r)
  | .midpointTowardZero => decide (half < r)
  | .toZero => false
  | .awayFromZero => r != 0
  | .toPositiveInfinity => !sg && r != 0
  | .toNegativeInfinity => sg && r != 0

/-- Half a unit in the last kept place, `g` places dropped: `5 * 10^(g-1)` (R141). -/
def halfUnit (g : Nat) : Nat := 5 * 10 ^ (g - 1)

/-- ROUND (R142): unchanged when the target places are not below the scale, else the truncated mantissa, rounded up or not;
the sign of a zero result is cleared. -/
def execRound (rd : RegNum) (imm : BitVec 8) (strat : Strategy) (s : State) : StepOutcome :=
  if s.scale rd ≤ imm.toNat then .next (complete rd .three (s.scale rd) {} s)
  else
    let g := s.scale rd - imm.toNat
    let m := s.val rd .three
    let up := roundsUp strat (s.sign rd) (m / 10 ^ g) (m % 10 ^ g) (halfUnit g)
    let t := m / 10 ^ g + up.toNat
    .next (complete rd .three imm.toNat { rnd := up }
      ((s.setVal rd .three t).setFs rd (t != 0 && s.sign rd) imm.toNat))

end Sys2Proof.Machine
end

