-- ==== Sys2Proof/Machine/Dispatch.lean ====
section
/-! DEFINITION. Step 4 of 30_encoding.md R70: the meaning of each command, one arm a constructor. -/

namespace Sys2Proof.Machine

def exec (i : Instr) (s : State) : Host.Outcome State Fault Refusal :=
  match i with
  | .add rd rs dl sl => Sys2Proof.Machine.execAdd rd rs dl sl s
  | .adds rd dl => Sys2Proof.Machine.execAdds rd dl s
  | .inc rd dl => Sys2Proof.Machine.execInc rd dl s
  | .sub rd rs dl sl => Sys2Proof.Machine.execSub rd rs dl sl s
  | .muls rd dl => Sys2Proof.Machine.execMuls rd dl s
  | .mulp rd dl imm => Sys2Proof.Machine.execMulp rd dl imm s
  | .divs rd dl => Sys2Proof.Machine.execDivs rd dl s
  | .divp rd dl imm => Sys2Proof.Machine.execDivp rd dl imm s
  | .shl1 rd dl ci => Sys2Proof.Machine.execShl1 rd dl ci s
  | .shln rd dl imm => Sys2Proof.Machine.execShln rd dl imm s
  | .cmp rd rs => Sys2Proof.Machine.execCmp rd rs s
  | .tstz rd dl => Sys2Proof.Machine.execTstz rd dl s
  | .mov rd rs dl => Sys2Proof.Machine.execMov rd rs dl s
  | .setscale rd imm => Sys2Proof.Machine.execSetscale rd imm s
  | .neg rd => Sys2Proof.Machine.execNeg rd s
  | .rescale rd imm => Sys2Proof.Machine.execRescale rd imm s
  | .align rd rs => Sys2Proof.Machine.execAlign rd rs s
  | .round rd imm strat => Sys2Proof.Machine.execRound rd imm strat s

end Sys2Proof.Machine
end

