-- ==== Sys2Proof/Machine/Bus.lean ====
section
/-! DEFINITION. The host's transactions (20_memory.md R54 to R57, R64; 60_exceptions.md R177) and the running of a command
word (30_encoding.md R70). -/

namespace Sys2Proof.Machine

/-- `execute command w` (30_encoding.md R70): a word that spells no command raises ILLEGAL_COMMAND. -/
def executeCommand (w : Word) (s : State) : StepOutcome :=
  match decode w with
  | .ok i => exec i s
  | .error _ => .next (raiseFault .illegalCommand w s)

/-- A host write of `v` to `Vi.FLAGS` (20_memory.md R56): checked, refused with INVALID_ARGUMENT or stored. -/
def writeFlags (i : RegNum) (v : Word) (s : State) : State :=
  if legalFlags v then s.setFlags i v else errorInvalidArgument s

/-- An accepted host write of `v` to a word of the map, the LKU not faulted (20_memory.md R64). The read-only words are
refused before (R55). -/
def writeMap (m : MapReg) (v : Word) (s : State) : StepOutcome :=
  match m with
  | .flags i => .next (writeFlags i v s)
  | .lo i => .next (s.setReg i { s.reg i with lo := v })
  | .mid i => .next (s.setReg i { s.reg i with mid := v })
  | .hi i => .next (s.setReg i { s.reg i with hi := v })
  | .ext i => .next (s.setReg i { s.reg i with ext := v })
  | .scl => .next { s with scl := v }
  | .cmd => executeCommand v s
  | .status => .next s
  | .result => .next s
  | .faultcmd => .next s

/-- The word a write carries, from its bytes in address order (20_memory.md R52). -/
def dataWord (data : List Byte) : Word :=
  match data with
  | [b0, b1, b2, b3] => wordOfBytes b0 b1 b2 b3
  | _ => 0#32

/-- The word a host write may go to: inside the map, aligned, 4 bytes, not read-only (20_memory.md R54, R55). -/
def State.writeTarget (s : State) (addr n : Nat) : Option MapReg :=
  match s.locate addr n with
  | some m => if m.writable then some m else none
  | none => none

/-- How the bus answers an event; RESET is no transaction and gets no answer. -/
def respond (e : HostEvent) (s : State) : List Response :=
  match e with
  | .read addr n =>
    match (s.locate addr n).bind s.readMap with
    | some w => [.data (bytesOfWord w)]
    | none => [.busError addr]
  | .write addr data =>
    match s.writeTarget addr data.length with
    | some _ => [.written]
    | none => [.busError addr]
  | .reset => []

/-- What an event does to the LKU, in the priority of 60_exceptions.md R177: a refused access does nothing; a write to a
faulted LKU is discarded (20_memory.md R57); a read does nothing (R61); RESET is 70_reset_and_hazards.md R190. -/
def perform (e : HostEvent) (s : State) : StepOutcome :=
  match e with
  | .read _ _ => .next s
  | .write addr data =>
    match s.writeTarget addr data.length with
    | some m => if s.faulted then .next s else writeMap m (dataWord data) s
    | none => .next s
  | .reset => .next (applyReset s)

/-- The state in which an event taken from the queue is performed: the rest of the queue, and the bus's answer recorded. -/
def State.taken (s : State) (rest : List HostEvent) (answer : List Response) : State :=
  { s with pending := rest, responses := s.responses ++ answer }

/-- One step: the next event of the host, to completion (20_memory.md R58); an idle LKU keeps all state (60_exceptions.md
R184; DEDUCED, notes/assumptions/4.md). -/
def busStep (s : State) : StepOutcome :=
  match s.pending with
  | [] => .next s
  | e :: rest => perform e (s.taken rest (respond e s))

/-- The host's write of a command word to CMD (30_encoding.md R77). -/
def State.commandWrite (s : State) (w : Word) : HostEvent := .write (s.base + cmdOffset) (bytesOfWord w)

/-- The state whose next event is the host's write of `w` to CMD. -/
def State.queueCommand (s : State) (w : Word) : State := { s with pending := s.commandWrite w :: s.pending }

end Sys2Proof.Machine
end

