-- ==== Sys2Proof/Machine/Step.lean ====
section
/-! DEFINITION. The step of the machine: one host event (10_state.md R20; 20_memory.md R58). -/

namespace Sys2Proof.Machine

/-- One step. -/
def step (s : State) : Host.Outcome State Fault Refusal := busStep s

/-- `s` with the instruction's word written to CMD as the host's next transaction: the LKU fetches nothing, a command exists
only as the data of the CMD write that carries it (20_memory.md R60; DESIGN CHOICE, notes/assumptions/1.md). -/
def State.withFetchWord (s : State) (nbits w : Nat) : State := s.queueCommand (BitVec.ofNat 32 (w % 2 ^ nbits))

end Sys2Proof.Machine
end

