-- ==== Sys2Proof/Safety.lean ====
section
/-! DEFINITION. The terms the claims use: what stays the same, how a command ends, what every reachable state keeps, which
transactions are refused, which words are illegal, and what counts as a good end of a run. They are written from the spec's
rules with bit positions and offsets of their own, not with the model's operations. -/

namespace Sys2Proof.Machine

/-! ### What stays the same -/

/-- The 24 words of the LKU are the same (10_state.md R21). -/
def SameUnit (s t : State) : Prop :=
  (∀ r, t.reg r = s.reg r) ∧ t.scl = s.scl ∧ t.status = s.status ∧ t.result = s.result ∧ t.faultcmd = s.faultcmd

/-- The model's own fields are the same: `BASE`, the host's queue, the answers. -/
def SameHost (s t : State) : Prop :=
  t.baseWord = s.baseWord ∧ t.pending = s.pending ∧ t.responses = s.responses

/-- Everything but register `rd`, RESULT and STATUS[10:0] is the same (10_state.md R32, R33). -/
def OthersSame (rd : RegNum) (s t : State) : Prop :=
  (∀ r, r ≠ rd → t.reg r = s.reg r) ∧ t.scl = s.scl ∧ t.faultcmd = s.faultcmd ∧
    t.status.extractLsb' 11 21 = s.status.extractLsb' 11 21 ∧ SameHost s t

/-- Everything but limbs 0 to `n - 1` of `rd`, RESULT and STATUS[10:0] is the same (10_state.md R32; 41_limb_add_sub.md R100
items 1 and 2). -/
def LimbsOnly (rd : RegNum) (n : OpLen) (s t : State) : Prop :=
  OthersSame rd s t ∧ (t.reg rd).flags = (s.reg rd).flags ∧ (n = .three → (t.reg rd).ext = (s.reg rd).ext)

/-- Nothing but RESULT and STATUS[10:0] changes. -/
def NoRegisterWritten (s t : State) : Prop :=
  (∀ r, t.reg r = s.reg r) ∧ t.scl = s.scl ∧ t.faultcmd = s.faultcmd ∧
    t.status.extractLsb' 11 21 = s.status.extractLsb' 11 21 ∧ SameHost s t

/-! ### How a command ends -/

/-- STATUS[10:0] and RESULT of a normal completion (10_state.md R29, R33). -/
def CompletedWith (t : State) (rd : RegNum) (n : OpLen) (res : Nat) (c : Bool) (ord : Nat) (rnd cap : Bool) : Prop :=
  t.result.toNat = res ∧ t.status.getLsbD 0 = c ∧ t.status.getLsbD 1 = decide (t.val rd n = 0) ∧
    (t.status.extractLsb' 2 2).toNat = ord ∧ t.status.getLsbD 4 = rnd ∧ t.status.getLsbD 5 = cap ∧
    t.status.extractLsb' 6 5 = 0#5

/-- The flag word of a sign and a scale, every reserved bit zero (00_scope.md R9 `setfs`; 10_state.md R23). -/
def FlagWord (w : Word) (sg : Bool) (sc : Nat) : Prop :=
  w.getLsbD 31 = sg ∧ (w.extractLsb' 16 8).toNat = sc ∧ w.extractLsb' 24 7 = 0#7 ∧ w.extractLsb' 0 16 = 0#16

/-- The four limbs of two registers are the same. -/
def SameLimbs (d e : DecReg) : Prop := e.lo = d.lo ∧ e.mid = d.mid ∧ e.hi = d.hi ∧ e.ext = d.ext

/-- What a limb array of an operating length counts up to (00_scope.md R8, R9). -/
def radix : OpLen → Nat
  | .three => 2 ^ 96
  | .four => 2 ^ 128

/-- All 24 words of the LKU are zero (10_state.md R37). -/
def AllWordsZero (t : State) : Prop :=
  (∀ r, t.reg r = { flags := 0#32, lo := 0#32, mid := 0#32, hi := 0#32, ext := 0#32 }) ∧ t.scl = 0#32 ∧ t.status = 0#32 ∧
    t.result = 0#32 ∧ t.faultcmd = 0#32

/-- The error outcome INVALID_ARGUMENT from `s` to `t` (60_exceptions.md R175). -/
def ErrorOutcome (s t : State) : Prop :=
  t.result = 0#32 ∧ t.status.extractLsb' 0 11 = 0x300#11 ∧ NoRegisterWritten s t

/-- Fault entry for the command word `w` from `s` to `t` (60_exceptions.md R172). -/
def FaultEntered (cause : FaultCause) (w : Word) (s t : State) : Prop :=
  t.status.getLsbD 31 = true ∧ t.status.extractLsb' 28 3 = cause.code ∧ t.faultcmd = w ∧
    t.status.extractLsb' 0 28 = s.status.extractLsb' 0 28 ∧ (∀ r, t.reg r = s.reg r) ∧ t.scl = s.scl ∧
    t.result = s.result ∧ SameHost s t

/-- The fault a command raises by its own check, or by a field value the decoder refuses (60_exceptions.md R171, R177). -/
def faultOf (i : Instr) (s : State) : Option FaultCause :=
  match i with
  | .add _ _ dl sl => if dl = .three ∧ sl = .four then some .lengthMismatch else none
  | .sub _ _ dl sl => if dl = .three ∧ sl = .four then some .lengthMismatch else none
  | .divs _ _ => if s.scl = 0#32 then some .divideByZeroScalar else none
  | .mulp _ _ imm => if 9 < imm.toNat then some .illegalCommand else none
  | .divp _ _ imm => if 9 < imm.toNat then some .illegalCommand else none
  | .shln _ _ imm => if 32 < imm.toNat then some .illegalCommand else none
  | .adds _ _ => none
  | .inc _ _ => none
  | .muls _ _ => none
  | .shl1 _ _ _ => none
  | .cmp _ _ => none
  | .tstz _ _ => none
  | .mov _ _ _ => none
  | .setscale _ _ => none
  | .neg _ => none
  | .rescale _ _ => none
  | .align _ _ => none
  | .round _ _ _ => none

/-! ### What a command reads and writes (10_state.md R32) -/

/-- The words of `x[r].L[0..n-1]`. -/
def limbWords (r : RegNum) : OpLen → List MapReg
  | .three => [.lo r, .mid r, .hi r]
  | .four => [.lo r, .mid r, .hi r, .ext r]

/-- The column "writes" of R32. -/
def writesOf : Instr → List MapReg
  | .add rd _ dl _ => limbWords rd dl
  | .adds rd dl => limbWords rd dl
  | .inc rd dl => limbWords rd dl
  | .sub rd _ dl _ => limbWords rd dl
  | .muls rd dl => limbWords rd dl
  | .mulp rd dl _ => limbWords rd dl
  | .divs rd dl => limbWords rd dl
  | .divp rd dl _ => limbWords rd dl
  | .shl1 rd dl _ => limbWords rd dl
  | .shln rd dl _ => limbWords rd dl
  | .cmp _ _ => []
  | .tstz _ _ => []
  | .mov rd _ dl => .flags rd :: limbWords rd dl
  | .setscale rd _ => [.flags rd]
  | .neg rd => [.flags rd]
  | .rescale rd _ => .flags rd :: limbWords rd .three
  | .align rd rs => .flags rd :: limbWords rd .three ++ .flags rs :: limbWords rs .three
  | .round rd _ _ => .flags rd :: limbWords rd .three

/-- The column "reads" of R32, and for SETSCALE the limbs that `complete(RD, 3, S)` tests for flag Z (R33, R92). -/
def readsOf : Instr → List MapReg
  | .add rd rs dl sl => limbWords rd dl ++ limbWords rs sl
  | .adds rd dl => .scl :: limbWords rd dl
  | .inc rd dl => limbWords rd dl
  | .sub rd rs dl sl => limbWords rd dl ++ limbWords rs sl
  | .muls rd dl => .scl :: limbWords rd dl
  | .mulp rd dl _ => limbWords rd dl
  | .divs rd dl => .scl :: limbWords rd dl
  | .divp rd dl _ => limbWords rd dl
  | .shl1 rd dl _ => limbWords rd dl
  | .shln rd dl _ => limbWords rd dl
  | .cmp rd rs => limbWords rd .three ++ limbWords rs .three
  | .tstz rd dl => limbWords rd dl
  | .mov _ rs dl => .flags rs :: limbWords rs dl
  | .setscale rd _ => .flags rd :: limbWords rd .three
  | .neg rd => .flags rd :: limbWords rd .three
  | .rescale rd _ => .flags rd :: limbWords rd .three
  | .align rd rs => .flags rd :: limbWords rd .three ++ .flags rs :: limbWords rs .three
  | .round rd _ _ => .flags rd :: limbWords rd .three

/-! ### What every reachable state keeps -/

/-- A legal flag word: reserved bits zero, SCALE at most 28 (10_state.md R23). -/
def FlagsLegal (w : Word) : Prop :=
  w.extractLsb' 24 7 = 0#7 ∧ w.extractLsb' 0 16 = 0#16 ∧ (w.extractLsb' 16 8).toNat ≤ 28

/-- A legal STATUS word (10_state.md R29; 93_implementation_defined.md S3, S4): reserved bits zero; ORD never 3; ERR only as
the whole error outcome, and ECODE 0 without it; FCAUSE 1 to 3 with FAULT and 0 without. -/
def StatusLegal (w : Word) : Prop :=
  w.extractLsb' 6 2 = 0#2 ∧ w.extractLsb' 11 17 = 0#17 ∧ w.extractLsb' 2 2 ≠ 3#2 ∧
    (if w.getLsbD 8 then w.extractLsb' 0 11 = 0x300#11 else w.extractLsb' 9 2 = 0#2) ∧
    (if w.getLsbD 31 then 1 ≤ (w.extractLsb' 28 3).toNat ∧ (w.extractLsb' 28 3).toNat ≤ 3 else w.extractLsb' 28 3 = 0#3)

/-- FAULTCMD is 0 without a fault, and with one it is a command word that raises the recorded cause (10_state.md R31;
60_exceptions.md R171, R173). -/
def FaultRecorded (s : State) : Prop :=
  if s.status.getLsbD 31 then
    (s.status.extractLsb' 28 3 = 1#3 → ∃ e, decode s.faultcmd = .error e) ∧
    (s.status.extractLsb' 28 3 = 2#3 → ∃ rd rs, decode s.faultcmd = .ok (.add rd rs .three .four) ∨
      decode s.faultcmd = .ok (.sub rd rs .three .four)) ∧
    (s.status.extractLsb' 28 3 = 3#3 → s.scl = 0#32 ∧ ∃ rd dl, decode s.faultcmd = .ok (.divs rd dl))
  else s.faultcmd = 0#32

/-- The invariant of the LKU: legal flag words, a legal STATUS, a fault record that fits, RESULT 0 beside ERR. -/
def UnitInv (s : State) : Prop :=
  (∀ r, FlagsLegal (s.reg r).flags) ∧ StatusLegal s.status ∧ FaultRecorded s ∧
    (s.status.getLsbD 8 = true → s.result = 0#32)

/-- Every zero mantissa is stored non-negative (10_state.md R25). -/
def ZerosCanonical (s : State) : Prop :=
  ∀ r, s.val r .three = 0 → (s.reg r).flags.getLsbD 31 = false

/-! ### The host's side -/

/-- The number of a register, for the offset formulas of 20_memory.md R51. -/
def RegNum.index : RegNum → Nat
  | .v0 => 0
  | .v1 => 1
  | .v2 => 2
  | .v3 => 3

/-- Offsets from `BASE` by the formulas of 20_memory.md R51. -/
def mapOffset : MapReg → Nat
  | .flags i => 0x10 * RegNum.index i
  | .lo i => 0x10 * RegNum.index i + 4
  | .mid i => 0x10 * RegNum.index i + 8
  | .hi i => 0x10 * RegNum.index i + 12
  | .ext i => 0x40 + 4 * RegNum.index i
  | .scl => 0x50
  | .cmd => 0x54
  | .status => 0x58
  | .result => 0x5C
  | .faultcmd => 0x60

/-- A transaction the bus refuses (20_memory.md R54, R55; 60_exceptions.md R176), with the address it is refused at. -/
def Refused (s : State) (e : HostEvent) (addr : Nat) : Prop :=
  match e with
  | .read a n =>
    addr = a ∧ (n ≠ 4 ∨ a % 4 ≠ 0 ∨ a < s.base ∨ s.base + 0x60 < a ∨ a = s.base + 0x54)
  | .write a data =>
    addr = a ∧ (data.length ≠ 4 ∨ a % 4 ≠ 0 ∨ a < s.base ∨ s.base + 0x60 < a ∨
      a = s.base + 0x58 ∨ a = s.base + 0x5C ∨ a = s.base + 0x60)
  | .reset => False

/-- The table of 30_encoding.md R74 as pairs of OPC and mask. -/
def maskOfOpc : List (BitVec 8 × Word) :=
  [(0x01, 0xFF03FFFF), (0x02, 0xFF37FFFF), (0x03, 0xFF37FFFF), (0x04, 0xFF03FFFF), (0x05, 0xFF37FFFF), (0x06, 0xFF3700FF),
   (0x07, 0xFF37FFFF), (0x08, 0xFF3700FF), (0x09, 0xFF36FFFF), (0x0A, 0xFF3700FF), (0x0B, 0xFF0FFFFF), (0x0C, 0xFF37FFFF),
   (0x10, 0xFF07FFFF), (0x11, 0xFF3F00FF), (0x12, 0xFF3FFFFF), (0x20, 0xFF3F00FF), (0x21, 0xFF0FFFFF), (0x22, 0xFF3F00F8)]

/-- An illegal command word: the three items of 30_encoding.md R75. -/
def IllegalWord (w : Word) : Prop :=
  (∀ row ∈ maskOfOpc, row.1 ≠ w.extractLsb' 24 8) ∨
  (∃ row ∈ maskOfOpc, row.1 = w.extractLsb' 24 8 ∧ w.extractLsb' 0 24 &&& row.2.extractLsb' 0 24 ≠ 0#24) ∨
  ((w.extractLsb' 24 8 = 0x06#8 ∨ w.extractLsb' 24 8 = 0x08#8) ∧ 9 < (w.extractLsb' 8 8).toNat) ∨
  (w.extractLsb' 24 8 = 0x0A#8 ∧ 32 < (w.extractLsb' 8 8).toNat) ∨
  (w.extractLsb' 24 8 = 0x22#8 ∧ w.extractLsb' 0 3 = 7#3)

/-- The STRAT codes by the table of 45_round.md R140. -/
def stratCode : Strategy → BitVec 3
  | .midpointNearestEven => 0
  | .midpointAwayFromZero => 1
  | .midpointTowardZero => 2
  | .toZero => 3
  | .awayFromZero => 4
  | .toPositiveInfinity => 5
  | .toNegativeInfinity => 6

/-- The bits of a command word by the field table of 30_encoding.md R71: OPC, the register numbers RD and RS, the lengths DL
and SL (a bit is 1 for four limbs), CI, IMM and STRAT, and bits 17 and 7:3 zero. A field the format of R72 does not use is
given as zero. -/
def CommandFields (w : Word) (opc : BitVec 8) (rd rs : Nat) (dl sl : OpLen) (ci : Bool) (imm : BitVec 8)
    (strat : BitVec 3) : Prop :=
  w.extractLsb' 24 8 = opc ∧ (w.extractLsb' 22 2).toNat = rd ∧ (w.extractLsb' 20 2).toNat = rs ∧
    w.getLsbD 19 = decide (dl = .four) ∧ w.getLsbD 18 = decide (sl = .four) ∧ w.getLsbD 17 = false ∧ w.getLsbD 16 = ci ∧
    w.extractLsb' 8 8 = imm ∧ w.extractLsb' 3 5 = 0#5 ∧ w.extractLsb' 0 3 = strat

/-- When ROUND rounds up (45_round.md R140): from the strategy, the sign, the truncated mantissa `t`, the remainder `r` and
one unit in the last kept place `u`; half is `u / 2`. -/
def RoundUpRule (strat : Strategy) (neg : Bool) (t r u : Nat) : Prop :=
  match strat with
  | .midpointNearestEven => u < 2 * r ∨ (2 * r = u ∧ t % 2 = 1)
  | .midpointAwayFromZero => u ≤ 2 * r
  | .midpointTowardZero => u < 2 * r
  | .toZero => False
  | .awayFromZero => r ≠ 0
  | .toPositiveInfinity => neg = false ∧ r ≠ 0
  | .toNegativeInfinity => neg = true ∧ r ≠ 0

/-- The signed mantissa: the logical value times `10 ^ scale` (10_state.md R24). -/
def State.signedMantissa (s : State) (r : RegNum) : Int :=
  if (s.reg r).flags.getLsbD 31 then - (s.val r .three : Int) else (s.val r .three : Int)

/-- A good end of a run (70_reset_and_hazards.md R197): every transaction done, no BusError raised, FAULT = 0. -/
def RunEndedWell (s : State) : Prop :=
  s.pending = [] ∧ (∀ r ∈ s.responses, ∀ addr, r ≠ .busError addr) ∧ s.status.getLsbD 31 = false

end Sys2Proof.Machine
end

