-- ==== Sys2Proof/Certificates/Slice0/Obligations.lean ====
section
/-! DEFINITION. The statements for the provers: what the LKU's commands, its register map, its faults and its reset do, from
the numbered rules of spec/. The terms they use are in Sys2Proof/Safety.lean. Two conventions of the model stand in every
statement about a step: the host's next transaction is the head of the queue `pending` (notes/assumptions/1.md), and what the
bus answers is appended to `responses` (notes/assumptions/2.md). -/

open Sys2Proof Sys2Proof.Machine

/-! ### Command words (30_encoding.md) -/

/-- Every well-formed command is what the decoder reads from its word: no field of an encoding is dropped (R70 to R73). -/
def Obligations.EncodedCommandDecodesBack : Prop :=
  ∀ i : Instr, i.wellFormed = true → decode (encode i) = .ok i

/-- Every word the decoder accepts is the word of the command it reads: no don't-care bits and no aliases (R75; 92 D14). -/
def Obligations.AcceptedWordEncodesBack : Prop :=
  ∀ (w : Word) (i : Instr), decode w = .ok i → i.wellFormed = true ∧ encode i = w

/-- A word selects at most one row of the opcode table, and it is the row the decoder takes (R70). -/
def Obligations.WordSelectsAtMostOneRow : Prop :=
  ∀ (w : Word) (o : Op), o.selects w = true → selectRow w = some o ∧ ∀ p : Op, p.selects w = true → p = o

/-- One worked encoding of R79 for each of the six families, and the illegal all-zero and all-ones words of R75. -/
def Obligations.WorkedEncodingsDecode : Prop :=
  decode 0x011C0000#32 = .ok (.add .v0 .v1 .four .four) ∧
  decode 0x07880000#32 = .ok (.divs .v2 .four) ∧
  decode 0x0A082000#32 = .ok (.shln .v0 .four 32#8) ∧
  decode 0x11001C00#32 = .ok (.setscale .v0 28#8) ∧
  decode 0x20000200#32 = .ok (.rescale .v0 2#8) ∧
  decode 0x22400206#32 = .ok (.round .v1 2#8 .toNegativeInfinity) ∧
  decode 0x00000000#32 = .error (.unassignedOpcode 0x00#8) ∧
  decode 0xFFFFFFFF#32 = .error (.unassignedOpcode 0xFF#8)

/-- The word of every command, bit by bit: its OPC from the table of R74, RD and RS by register number, DL, SL, CI and IMM in
the positions of R71, STRAT by the codes of 45_round.md R140, and zero in every bit its format does not use (R72, R77). -/
def Obligations.EncodingHasTheLiteralFields : Prop :=
  ∀ (rd rs : RegNum) (dl sl : OpLen) (ci : Bool) (imm : BitVec 8) (strat : Strategy),
    CommandFields (encode (.add rd rs dl sl)) 0x01#8 (RegNum.index rd) (RegNum.index rs) dl sl false 0#8 0#3 ∧
    CommandFields (encode (.adds rd dl)) 0x02#8 (RegNum.index rd) 0 dl .three false 0#8 0#3 ∧
    CommandFields (encode (.inc rd dl)) 0x03#8 (RegNum.index rd) 0 dl .three false 0#8 0#3 ∧
    CommandFields (encode (.sub rd rs dl sl)) 0x04#8 (RegNum.index rd) (RegNum.index rs) dl sl false 0#8 0#3 ∧
    CommandFields (encode (.muls rd dl)) 0x05#8 (RegNum.index rd) 0 dl .three false 0#8 0#3 ∧
    CommandFields (encode (.mulp rd dl imm)) 0x06#8 (RegNum.index rd) 0 dl .three false imm 0#3 ∧
    CommandFields (encode (.divs rd dl)) 0x07#8 (RegNum.index rd) 0 dl .three false 0#8 0#3 ∧
    CommandFields (encode (.divp rd dl imm)) 0x08#8 (RegNum.index rd) 0 dl .three false imm 0#3 ∧
    CommandFields (encode (.shl1 rd dl ci)) 0x09#8 (RegNum.index rd) 0 dl .three ci 0#8 0#3 ∧
    CommandFields (encode (.shln rd dl imm)) 0x0A#8 (RegNum.index rd) 0 dl .three false imm 0#3 ∧
    CommandFields (encode (.cmp rd rs)) 0x0B#8 (RegNum.index rd) (RegNum.index rs) .three .three false 0#8 0#3 ∧
    CommandFields (encode (.tstz rd dl)) 0x0C#8 (RegNum.index rd) 0 dl .three false 0#8 0#3 ∧
    CommandFields (encode (.mov rd rs dl)) 0x10#8 (RegNum.index rd) (RegNum.index rs) dl .three false 0#8 0#3 ∧
    CommandFields (encode (.setscale rd imm)) 0x11#8 (RegNum.index rd) 0 .three .three false imm 0#3 ∧
    CommandFields (encode (.neg rd)) 0x12#8 (RegNum.index rd) 0 .three .three false 0#8 0#3 ∧
    CommandFields (encode (.rescale rd imm)) 0x20#8 (RegNum.index rd) 0 .three .three false imm 0#3 ∧
    CommandFields (encode (.align rd rs)) 0x21#8 (RegNum.index rd) (RegNum.index rs) .three .three false 0#8 0#3 ∧
    CommandFields (encode (.round rd imm strat)) 0x22#8 (RegNum.index rd) 0 .three .three false imm (stratCode strat)

/-! ### The step and the host's transactions (10_state.md R20, R34; 20_memory.md) -/

/-- A CMD write to an LKU that is not faulted runs the decoded command, in the state whose queue has lost the write and
whose answers have gained the bus's acceptance (R64; 30_encoding.md R70).
The queue and the list of answers are the model's choice (notes/assumptions/1.md, 2.md). -/
def Obligations.StepRunsTheDecodedCommand : Prop :=
  ∀ (s : State) (w : Word) (i : Instr) (rest : List HostEvent),
    s.pending = .write (s.base + 0x54) (bytesOfWord w) :: rest → s.status.getLsbD 31 = false → decode w = .ok i →
    step s = exec i { s with pending := rest, responses := s.responses ++ [.written] }

/-- R75: a word of one of its three items raises ILLEGAL_COMMAND, recorded as R172 says, and every other word is a command
and runs.
The queue and the recorded acceptance are the model's choice (notes/assumptions/1.md, 2.md). -/
def Obligations.IllegalWordFaultsAndEveryOtherRuns : Prop :=
  ∀ (s : State) (w : Word) (rest : List HostEvent),
    s.pending = .write (s.base + 0x54) (bytesOfWord w) :: rest → s.status.getLsbD 31 = false →
    (IllegalWord w → ∃ t, step s = .next t ∧
      FaultEntered .illegalCommand w { s with pending := rest, responses := s.responses ++ [.written] } t) ∧
    (¬ IllegalWord w → ∃ i, decode w = .ok i ∧
      step s = exec i { s with pending := rest, responses := s.responses ++ [.written] })

/-- Every step answers a next state: it takes the next event off the queue, if there is one, gives at most one answer, and
leaves `BASE`. The queue, the answers and the home of `BASE` are the model's choice (notes/assumptions/1.md, 2.md, 3.md); that
a step with no event queued answers, and that every fault and BusError is a next state, is the model's inference
(notes/assumptions/4.md, 10.md). -/
def Obligations.EveryStepAnswersANextState : Prop :=
  ∀ s : State, ∃ t answer, step s = .next t ∧ t.baseWord = s.baseWord ∧ t.pending = s.pending.tail ∧
    t.responses = s.responses ++ answer ∧ answer.length ≤ 1

/-- A run of as many steps as the host has events ends with the queue exhausted, one answer for each transaction (RESET is
none), in a state that idles.
The queue, the answers and the idle step are the model's reading (notes/assumptions/1.md, 2.md, 4.md). -/
def Obligations.RunExhaustsTheHostsEvents : Prop :=
  ∀ s : State, ∃ t : State, Host.Core.run Sys2Proof.core s.pending.length s = .next t ∧ t.pending = [] ∧
    t.responses.length = s.responses.length + s.pending.countP (fun e => e != .reset) ∧ step t = .next t

/-- R176: a refused transaction is answered by BusError at its address and changes nothing, faulted or not.
The queue, and that the refusal is recorded as an answer, are the model's choice (notes/assumptions/1.md, 2.md). -/
def Obligations.RefusedAccessChangesNothing : Prop :=
  ∀ (s : State) (e : HostEvent) (rest : List HostEvent) (addr : Nat),
    s.pending = e :: rest → Refused s e addr →
    step s = .next { s with pending := rest, responses := s.responses ++ [.busError addr] }

/-- Every other access is accepted: a read is answered by four bytes, a write by the bus's acceptance (R54, R55).
The queue, and how an answer is recorded, are the model's choice (notes/assumptions/1.md, 2.md). -/
def Obligations.AcceptedAccessIsNeverABusError : Prop :=
  ∀ (s : State) (e : HostEvent) (rest : List HostEvent), s.pending = e :: rest → (∀ addr, ¬ Refused s e addr) →
    ∃ t, step s = .next t ∧
      match e with
      | .read _ _ => ∃ b0 b1 b2 b3, t.responses = s.responses ++ [.data [b0, b1, b2, b3]]
      | .write _ _ => t.responses = s.responses ++ [.written]
      | .reset => t.responses = s.responses

/-- A read at the offset R51 gives a word returns its four bytes, lowest address least significant (R52), and changes nothing
(R61), faulted or not.
The queue and the recorded answer are the model's choice (notes/assumptions/1.md, 2.md). -/
def Obligations.ReadReturnsTheWordLittleEndian : Prop :=
  ∀ (s : State) (m : MapReg) (w : Word) (rest : List HostEvent), s.readMap m = some w →
    s.pending = .read (s.base + mapOffset m) 4 :: rest →
    step s = .next { s with pending := rest, responses := s.responses ++
      [.data [w.extractLsb' 0 8, w.extractLsb' 8 8, w.extractLsb' 16 8, w.extractLsb' 24 8]] }

/-- R34: a read changes no state of the LKU; a write of a register word or of SCL changes that word only, except that a
FLAGS write which is refused changes RESULT and STATUS[10:0] and no register. -/
def Obligations.PlainAccessesChangeOnlyWhatTheyAddress : Prop :=
  (∀ (s : State) (addr n : Nat) (rest : List HostEvent), s.pending = .read addr n :: rest →
    ∃ t, step s = .next t ∧ SameUnit s t) ∧
  (∀ (s : State) (m : MapReg) (v : Word) (rest : List HostEvent),
    s.pending = .write (s.base + mapOffset m) (bytesOfWord v) :: rest → s.status.getLsbD 31 = false →
    m.writable = true → m ≠ .cmd → (∀ i, m = .flags i → FlagsLegal v) →
    ∃ t, step s = .next t ∧ t.readMap m = some v ∧ ∀ m', m' ≠ m → t.readMap m' = s.readMap m') ∧
  (∀ (s : State) (i : RegNum) (v : Word) (rest : List HostEvent),
    s.pending = .write (s.base + mapOffset (.flags i)) (bytesOfWord v) :: rest → s.status.getLsbD 31 = false →
    ¬ FlagsLegal v → ∃ t, step s = .next t ∧ (∀ r, t.reg r = s.reg r) ∧ t.scl = s.scl ∧ t.faultcmd = s.faultcmd)

/-- R56: a FLAGS word with a reserved bit set or SCALE above 28 is refused with INVALID_ARGUMENT, any other is stored and
nothing else changes.
The queue, and that a refused FLAGS write is answered as accepted on the bus, are the model's choice (notes/assumptions/1.md,
2.md). -/
def Obligations.FlagsWriteIsChecked : Prop :=
  ∀ (s : State) (i : RegNum) (v : Word) (rest : List HostEvent),
    s.pending = .write (s.base + 0x10 * RegNum.index i) (bytesOfWord v) :: rest → s.status.getLsbD 31 = false →
    ((v.extractLsb' 24 7 ≠ 0#7 ∨ v.extractLsb' 0 16 ≠ 0#16 ∨ 28 < (v.extractLsb' 16 8).toNat) →
      ∃ t, step s = .next t ∧ ErrorOutcome { s with pending := rest, responses := s.responses ++ [.written] } t) ∧
    (v.extractLsb' 24 7 = 0#7 → v.extractLsb' 0 16 = 0#16 → (v.extractLsb' 16 8).toNat ≤ 28 →
      ∃ t, step s = .next t ∧ t.reg i = { s.reg i with flags := v } ∧ (∀ r, r ≠ i → t.reg r = s.reg r) ∧
        t.scl = s.scl ∧ t.status = s.status ∧ t.result = s.result ∧ t.faultcmd = s.faultcmd)

/-- R57: while FAULT = 1 an acceptable write is accepted on the bus and discarded, a read works as always, and a refused
access still raises BusError.
The queue and the recorded answers are the model's choice (notes/assumptions/1.md, 2.md). -/
def Obligations.FaultedUnitDiscardsWrites : Prop :=
  ∀ (s : State) (e : HostEvent) (rest : List HostEvent), s.status.getLsbD 31 = true → s.pending = e :: rest →
    (∀ addr data, e = .write addr data → (∀ b, ¬ Refused s e b) →
      step s = .next { s with pending := rest, responses := s.responses ++ [.written] }) ∧
    (∀ m w, e = .read (s.base + mapOffset m) 4 → s.readMap m = some w →
      step s = .next { s with pending := rest, responses := s.responses ++ [.data (bytesOfWord w)] }) ∧
    (∀ addr, Refused s e addr →
      step s = .next { s with pending := rest, responses := s.responses ++ [.busError addr] })

/-- The wire image round trip: four legal words written to `Vi.FLAGS, LO, MID, HI` and read back are the same words (R53,
R65).
The queue and the answers are the model's choice (notes/assumptions/1.md, 2.md). -/
def Obligations.WireImageRoundTrips : Prop :=
  ∀ (s : State) (i : RegNum) (f l0 l1 l2 : Word) (rest : List HostEvent),
    s.status.getLsbD 31 = false → FlagsLegal f →
    s.pending =
      [.write (s.base + 0x10 * RegNum.index i) (bytesOfWord f), .write (s.base + 0x10 * RegNum.index i + 4) (bytesOfWord l0),
       .write (s.base + 0x10 * RegNum.index i + 8) (bytesOfWord l1),
       .write (s.base + 0x10 * RegNum.index i + 12) (bytesOfWord l2),
       .read (s.base + 0x10 * RegNum.index i) 4, .read (s.base + 0x10 * RegNum.index i + 4) 4,
       .read (s.base + 0x10 * RegNum.index i + 8) 4, .read (s.base + 0x10 * RegNum.index i + 12) 4] ++ rest →
    ∃ t : State, Host.Core.run Sys2Proof.core 8 s = .next t ∧ t.pending = rest ∧
      t.responses = s.responses ++ [.written, .written, .written, .written, .data (bytesOfWord f), .data (bytesOfWord l0),
        .data (bytesOfWord l1), .data (bytesOfWord l2)]

/-! ### Reset and the faulted state (70_reset_and_hazards.md R190; 60_exceptions.md) -/

/-- R37: after reset all 24 words are zero. -/
def Obligations.ResetStateIsAllZero : Prop := AllWordsZero State.reset

/-- R190: RESET makes every word zero whatever the state was, and no other event clears FAULT. -/
def Obligations.ResetClearsEverythingAndAloneClearsFault : Prop :=
  (∀ (s : State) (rest : List HostEvent), s.pending = .reset :: rest →
    ∃ t, step s = .next t ∧ AllWordsZero t) ∧
  (∀ s t : State, step s = .next t → s.status.getLsbD 31 = true → t.status.getLsbD 31 = false →
    ∃ rest, s.pending = .reset :: rest)

/-- R173: from a faulted state, a run of any length without RESET changes none of the 24 words, so no command runs, no
second fault happens, and FCAUSE and FAULTCMD keep describing the first.
The queue and RESET as one of its events are the model's form (notes/assumptions/1.md, 9.md). -/
def Obligations.FaultedUnitIsFrozenAlongEveryRun : Prop :=
  ∀ (k : Nat) (s t : State), s.status.getLsbD 31 = true → (∀ e ∈ s.pending, e ≠ .reset) →
    Host.Core.run Sys2Proof.core k s = .next t → SameUnit s t

/-- R172: a command that meets a fault condition of R171 enters the fault with its own word and does nothing else, and a
command that meets none leaves STATUS[31:28] and FAULTCMD.
That FAULTCMD is `encode` of the command, and the fault of a meaning on an immediate the decoder refuses, are the model's
inference (notes/assumptions/6.md, 7.md). -/
def Obligations.FaultsArePreciseAndOnlyThoseListed : Prop :=
  ∀ (i : Instr) (s : State),
    (∀ c, faultOf i s = some c → ∃ t, exec i s = .next t ∧ FaultEntered c (encode i) s t) ∧
    (faultOf i s = none → ∃ t, exec i s = .next t ∧ t.faultcmd = s.faultcmd ∧
      t.status.extractLsb' 28 4 = s.status.extractLsb' 28 4)

/-! ### Invariants -/

/-- The invariant holds at reset. -/
def Obligations.UnitInvariantHoldsAtReset : Prop := UnitInv State.reset

/-- Every step keeps the invariant: legal flag words (10_state.md R23), a legal STATUS (R29; 93 S3, S4), a fault record that
fits the cause (R31; 60_exceptions.md R173), RESULT 0 beside ERR (R175). -/
def Obligations.UnitInvariantIsKeptByEveryStep : Prop :=
  ∀ s t : State, UnitInv s → step s = .next t → UnitInv t

/-- Canonical zero (10_state.md R25): the commands that write FLAGS as values leave no register they change with SIGN 1 on a
zero mantissa, NEG in every case, and no command but the limb kernel's can make a zero non-canonical. -/
def Obligations.ValueCommandsKeepZeroCanonical : Prop :=
  (∀ (rd : RegNum) (s t : State),
    exec (.neg rd) s = .next t → t.val rd .three = 0 → (t.reg rd).flags.getLsbD 31 = false) ∧
  (∀ (i : Instr) (s t : State) (r : RegNum), i.op = .rescale ∨ i.op = .align ∨ i.op = .round → exec i s = .next t →
    t.reg r ≠ s.reg r → t.val r .three = 0 → (t.reg r).flags.getLsbD 31 = false) ∧
  (∀ (i : Instr) (s t : State),
    i.op = .mov ∨ i.op = .setscale ∨ i.op = .neg ∨ i.op = .rescale ∨ i.op = .align ∨ i.op = .round ∨ i.op = .cmp ∨
      i.op = .tstz →
    exec i s = .next t → ZerosCanonical s → ZerosCanonical t)

/-! ### What the commands read and write (10_state.md R32) -/

/-- The frame of every command over the bytes of the register map: a command that does not fault leaves every byte outside
the words R32 lists, STATUS and RESULT as it was. -/
def Obligations.CommandsWriteOnlyTheirWords : Prop :=
  ∀ (i : Instr) (s t : State), exec i s = .next t → faultOf i s = none → ∀ addr : Nat,
    (∀ m, s.locate (addr / 4 * 4) 4 = some m → m ∉ writesOf i ∧ m ≠ .status ∧ m ≠ .result) →
    t.mapByte addr = s.mapByte addr

/-- Two states that agree on the words a command reads (R32, and for SETSCALE the limbs flag Z tests) agree after it on the
words it writes, and, where it does not fault, on RESULT and STATUS[10:0].
That SETSCALE reads the limbs for Z is the model's inference (notes/assumptions/13.md). -/
def Obligations.CommandsDependOnlyOnTheirReads : Prop :=
  ∀ (i : Instr) (s s' t t' : State), (∀ m ∈ readsOf i, s.readMap m = s'.readMap m) →
    exec i s = .next t → exec i s' = .next t' →
    (∀ m ∈ writesOf i, m ∈ readsOf i ∨ faultOf i s = none → t.readMap m = t'.readMap m) ∧
    (faultOf i s = none → t.result = t'.result ∧ t.status.extractLsb' 0 11 = t'.status.extractLsb' 0 11)

/-! ### The limb kernel (41_limb_add_sub.md, 42_limb_mul_div.md, 43_limb_shift_compare.md) -/

/-- R101: ADD adds over the operating lengths with the carry in RESULT and C, and faults on the pair (3, 4).
That FAULTCMD is `encode` of the command is the model's inference (notes/assumptions/6.md). -/
def Obligations.AddAddsWithCarryOut : Prop :=
  ∀ (rd rs : RegNum) (dl sl : OpLen) (s : State),
    (dl = .three ∧ sl = .four → ∃ t, exec (.add rd rs dl sl) s = .next t ∧
      FaultEntered .lengthMismatch (encode (.add rd rs dl sl)) s t) ∧
    (¬ (dl = .three ∧ sl = .four) → ∃ t k, exec (.add rd rs dl sl) s = .next t ∧ k ≤ 1 ∧
      t.val rd dl + radix dl * k = s.val rd dl + s.val rs sl ∧
      CompletedWith t rd dl k (decide (k = 1)) 0 false false ∧ LimbsOnly rd dl s t)

/-- R102: ADDS adds SCL, zero-extended. -/
def Obligations.AddsAddsTheScalar : Prop :=
  ∀ (rd : RegNum) (dl : OpLen) (s : State), ∃ t k, exec (.adds rd dl) s = .next t ∧ k ≤ 1 ∧
    t.val rd dl + radix dl * k = s.val rd dl + s.scl.toNat ∧
    CompletedWith t rd dl k (decide (k = 1)) 0 false false ∧ LimbsOnly rd dl s t

/-- R103: INC adds one; the carry is 1 only when every limb was all ones. -/
def Obligations.IncAddsOne : Prop :=
  ∀ (rd : RegNum) (dl : OpLen) (s : State), ∃ t k, exec (.inc rd dl) s = .next t ∧ k ≤ 1 ∧
    t.val rd dl + radix dl * k = s.val rd dl + 1 ∧ (k = 1 ↔ s.val rd dl = radix dl - 1) ∧
    CompletedWith t rd dl k (decide (k = 1)) 0 false false ∧ LimbsOnly rd dl s t

/-- R104: SUB subtracts with two's-complement wrap and the borrow in RESULT and C, and faults on the pair (3, 4).
That FAULTCMD is `encode` of the command is the model's inference (notes/assumptions/6.md). -/
def Obligations.SubSubtractsWithBorrowOut : Prop :=
  ∀ (rd rs : RegNum) (dl sl : OpLen) (s : State),
    (dl = .three ∧ sl = .four → ∃ t, exec (.sub rd rs dl sl) s = .next t ∧
      FaultEntered .lengthMismatch (encode (.sub rd rs dl sl)) s t) ∧
    (¬ (dl = .three ∧ sl = .four) → ∃ t k, exec (.sub rd rs dl sl) s = .next t ∧ k ≤ 1 ∧
      t.val rd dl + s.val rs sl = s.val rd dl + radix dl * k ∧ (k = 1 ↔ s.val rd dl < s.val rs sl) ∧
      CompletedWith t rd dl k (decide (k = 1)) 0 false false ∧ LimbsOnly rd dl s t)

/-- R111: MULS multiplies by SCL with the 32-bit carry in RESULT. -/
def Obligations.MulsMultipliesByTheScalar : Prop :=
  ∀ (rd : RegNum) (dl : OpLen) (s : State), ∃ t k, exec (.muls rd dl) s = .next t ∧ k ≤ 2 ^ 32 - 2 ∧
    t.val rd dl + radix dl * k = s.val rd dl * s.scl.toNat ∧
    CompletedWith t rd dl k (decide (k ≠ 0)) 0 false false ∧ LimbsOnly rd dl s t

/-- R112: MULP multiplies by `10 ^ K` for K at most 9, SCL neither read nor changed; K above 9 is illegal.
The last clause, which no step reaches, is the model's inference (notes/assumptions/6.md, 7.md): the spec faults at decode. -/
def Obligations.MulpMultipliesByAPowerOfTen : Prop :=
  ∀ (rd : RegNum) (dl : OpLen) (imm : BitVec 8) (s : State),
    (imm.toNat ≤ 9 → ∃ t k, exec (.mulp rd dl imm) s = .next t ∧
      t.val rd dl + radix dl * k = s.val rd dl * 10 ^ imm.toNat ∧
      CompletedWith t rd dl k (decide (k ≠ 0)) 0 false false ∧ LimbsOnly rd dl s t) ∧
    (9 < imm.toNat → ∃ t, exec (.mulp rd dl imm) s = .next t ∧
      FaultEntered .illegalCommand (encode (.mulp rd dl imm)) s t)

/-- R113: DIVS is floor division by SCL with the remainder in RESULT, and faults when SCL is 0.
That FAULTCMD is `encode` of the command is the model's inference (notes/assumptions/6.md). -/
def Obligations.DivsDividesByTheScalar : Prop :=
  ∀ (rd : RegNum) (dl : OpLen) (s : State),
    (s.scl = 0#32 → ∃ t, exec (.divs rd dl) s = .next t ∧
      FaultEntered .divideByZeroScalar (encode (.divs rd dl)) s t) ∧
    (s.scl ≠ 0#32 → ∃ t r, exec (.divs rd dl) s = .next t ∧ r < s.scl.toNat ∧
      s.val rd dl = t.val rd dl * s.scl.toNat + r ∧
      CompletedWith t rd dl r false 0 false false ∧ LimbsOnly rd dl s t)

/-- R114: DIVP is floor division by `10 ^ K` for K at most 9; it cannot divide by zero; K above 9 is illegal.
The last clause, which no step reaches, is the model's inference (notes/assumptions/6.md, 7.md): the spec faults at decode. -/
def Obligations.DivpDividesByAPowerOfTen : Prop :=
  ∀ (rd : RegNum) (dl : OpLen) (imm : BitVec 8) (s : State),
    (imm.toNat ≤ 9 → ∃ t r, exec (.divp rd dl imm) s = .next t ∧ r < 10 ^ imm.toNat ∧
      s.val rd dl = t.val rd dl * 10 ^ imm.toNat + r ∧
      CompletedWith t rd dl r false 0 false false ∧ LimbsOnly rd dl s t) ∧
    (9 < imm.toNat → ∃ t, exec (.divp rd dl imm) s = .next t ∧
      FaultEntered .illegalCommand (encode (.divp rd dl imm)) s t)

/-- R120: SHL1 doubles, CI enters at bit 0, and the old top bit comes out. -/
def Obligations.Shl1ShiftsInTheCarry : Prop :=
  ∀ (rd : RegNum) (dl : OpLen) (ci : Bool) (s : State), ∃ t k, exec (.shl1 rd dl ci) s = .next t ∧ k ≤ 1 ∧
    t.val rd dl + radix dl * k = 2 * s.val rd dl + (if ci then 1 else 0) ∧
    CompletedWith t rd dl k (decide (k = 1)) 0 false false ∧ LimbsOnly rd dl s t

/-- R121: SHLN shifts left by N at most 32, the bits shifted out in RESULT; N above 32 is illegal.
The last clause, which no step reaches, is the model's inference (notes/assumptions/6.md, 7.md): the spec faults at decode. -/
def Obligations.ShlnShiftsLeftByTheImmediate : Prop :=
  ∀ (rd : RegNum) (dl : OpLen) (imm : BitVec 8) (s : State),
    (imm.toNat ≤ 32 → ∃ t k, exec (.shln rd dl imm) s = .next t ∧ k < 2 ^ imm.toNat ∧
      t.val rd dl + radix dl * k = s.val rd dl * 2 ^ imm.toNat ∧
      CompletedWith t rd dl k (decide (k ≠ 0)) 0 false false ∧ LimbsOnly rd dl s t) ∧
    (32 < imm.toNat → ∃ t, exec (.shln rd dl imm) s = .next t ∧
      FaultEntered .illegalCommand (encode (.shln rd dl imm)) s t)

/-- SHLN by `N + 1` is SHLN by `N` and then SHL1 with CI = 0, the bits that fall out collected most significant first
(R121). -/
def Obligations.ShlnIsRepeatedShl1 : Prop :=
  ∀ (rd : RegNum) (dl : OpLen) (imm : BitVec 8) (s t u : State), imm.toNat < 32 →
    exec (.shln rd dl imm) s = .next t → exec (.shl1 rd dl false) t = .next u →
    ∃ v, exec (.shln rd dl (imm + 1#8)) s = .next v ∧ (∀ r, v.reg r = u.reg r) ∧
      v.result.toNat = 2 * t.result.toNat + u.result.toNat

/-- R122: CMP compares the highest limbs first, then the lower two as one 64-bit number; no register is written. -/
def Obligations.CmpComparesMostSignificantLimbFirst : Prop :=
  ∀ (rd rs : RegNum) (s : State), ∃ t ord, exec (.cmp rd rs) s = .next t ∧ NoRegisterWritten s t ∧
    CompletedWith t rd .three ord false ord false false ∧
    ord =
      (if (s.reg rd).hi ≠ (s.reg rs).hi then if (s.reg rd).hi < (s.reg rs).hi then 1 else 2
       else if (s.reg rd).mid ++ (s.reg rd).lo = (s.reg rs).mid ++ (s.reg rs).lo then 0
       else if (s.reg rd).mid ++ (s.reg rd).lo < (s.reg rs).mid ++ (s.reg rs).lo then 1 else 2)

/-- R123: TSTZ answers 1 exactly when every limb of the operating length is zero; no register is written. -/
def Obligations.TstzTestsTheLimbs : Prop :=
  ∀ (rd : RegNum) (dl : OpLen) (s : State), ∃ t z, exec (.tstz rd dl) s = .next t ∧ NoRegisterWritten s t ∧
    CompletedWith t rd dl z false 0 false false ∧ z ≤ 1 ∧
    (z = 1 ↔ (s.reg rd).lo = 0#32 ∧ (s.reg rd).mid = 0#32 ∧ (s.reg rd).hi = 0#32 ∧ (dl = .four → (s.reg rd).ext = 0#32))

/-- SUB of the same unchanged source undoes ADD, and its borrow is the ADD's carry (R105). -/
def Obligations.SubUndoesAdd : Prop :=
  ∀ (rd rs : RegNum) (dl sl : OpLen) (s t u : State), rd ≠ rs → ¬ (dl = .three ∧ sl = .four) →
    exec (.add rd rs dl sl) s = .next t → exec (.sub rd rs dl sl) t = .next u →
    (∀ r, u.reg r = s.reg r) ∧ u.result = t.result

/-- DIVS by a scalar, MULS by it and ADDS of the remainder restore the register with no carry (R113; 95 section 4). -/
def Obligations.DivideMultiplyAddRestores : Prop :=
  ∀ (rd : RegNum) (dl : OpLen) (s t u v : State), s.scl ≠ 0#32 →
    exec (.divs rd dl) s = .next t → exec (.muls rd dl) t = .next u →
    exec (.adds rd dl) { u with scl := t.result } = .next v →
    (∀ r, v.reg r = s.reg r) ∧ u.result = 0#32 ∧ v.result = 0#32

/-- The scalar forms agree: ADDS is ADD of a register that holds `(SCL, 0, 0)`, INC is ADDS with SCL = 1, MULP and DIVP are
MULS and DIVS with SCL = `10 ^ K`, SHLN by 1 is SHL1 with CI = 0 (R102, R103, R110, R121). -/
def Obligations.ScalarFormsAgree : Prop :=
  ∀ (rd rs : RegNum) (dl : OpLen) (imm : BitVec 8) (s : State),
    (s.val rs .three = s.scl.toNat → exec (.adds rd dl) s = exec (.add rd rs dl .three) s) ∧
    (s.scl = 1#32 → exec (.inc rd dl) s = exec (.adds rd dl) s) ∧
    (imm.toNat ≤ 9 → s.scl.toNat = 10 ^ imm.toNat → exec (.mulp rd dl imm) s = exec (.muls rd dl) s ∧
      exec (.divp rd dl imm) s = exec (.divs rd dl) s) ∧
    exec (.shln rd dl 1#8) s = exec (.shl1 rd dl false) s

/-! ### Representation (40_representation.md) -/

/-- R91: MOV copies FLAGS and the limbs of the operating length; EXT follows only with DL = 1. -/
def Obligations.MovCopiesFlagsAndLimbs : Prop :=
  ∀ (rd rs : RegNum) (dl : OpLen) (s : State), ∃ t, exec (.mov rd rs dl) s = .next t ∧
    (t.reg rd).flags = (s.reg rs).flags ∧ (t.reg rd).lo = (s.reg rs).lo ∧ (t.reg rd).mid = (s.reg rs).mid ∧
    (t.reg rd).hi = (s.reg rs).hi ∧
    (t.reg rd).ext = (if dl = .four then (s.reg rs).ext else (s.reg rd).ext) ∧
    CompletedWith t rd dl 0 false 0 false false ∧ OthersSame rd s t

/-- R92: SETSCALE writes the scale alone, keeping the sign and the limbs; above 28 it is the error outcome. -/
def Obligations.SetscaleWritesTheScaleAlone : Prop :=
  ∀ (rd : RegNum) (imm : BitVec 8) (s : State),
    (28 < imm.toNat → ∃ t, exec (.setscale rd imm) s = .next t ∧ ErrorOutcome s t) ∧
    (imm.toNat ≤ 28 → ∃ t, exec (.setscale rd imm) s = .next t ∧
      FlagWord (t.reg rd).flags ((s.reg rd).flags.getLsbD 31) imm.toNat ∧ SameLimbs (s.reg rd) (t.reg rd) ∧
      CompletedWith t rd .three imm.toNat false 0 false false ∧ OthersSame rd s t)

/-- R93: NEG flips the sign of a non-zero mantissa and clears that of a zero one; RESULT is the new sign. -/
def Obligations.NegFlipsTheSignOfNonZero : Prop :=
  ∀ (rd : RegNum) (s : State), ∃ t ns, exec (.neg rd) s = .next t ∧
    ns = (if s.val rd .three = 0 then false else !(s.reg rd).flags.getLsbD 31) ∧
    FlagWord (t.reg rd).flags ns ((s.reg rd).flags.extractLsb' 16 8).toNat ∧ SameLimbs (s.reg rd) (t.reg rd) ∧
    CompletedWith t rd .three (if ns then 1 else 0) false 0 false false ∧ OthersSame rd s t

/-! ### The rescaler (44_rescale_align.md) -/

/-- RESCALE to a smaller scale is the magnitude rounded half up (R130, R131, closed form of R133): RND says whether the
leading dropped digit was 5 or more; a zero result loses its sign. -/
def Obligations.RescaleDownRoundsHalfUp : Prop :=
  ∀ (rd : RegNum) (imm : BitVec 8) (s : State), imm.toNat ≤ 28 → imm.toNat < s.scale rd →
    ∃ t g, exec (.rescale rd imm) s = .next t ∧ g = s.scale rd - imm.toNat ∧
      t.val rd .three = (s.val rd .three + 5 * 10 ^ (g - 1)) / 10 ^ g ∧
      FlagWord (t.reg rd).flags (decide (t.val rd .three ≠ 0) && (s.reg rd).flags.getLsbD 31) imm.toNat ∧
      (t.reg rd).ext = (s.reg rd).ext ∧
      CompletedWith t rd .three imm.toNat false 0 (decide (5 ≤ s.val rd .three / 10 ^ (g - 1) % 10)) false ∧
      OthersSame rd s t

/-- RESCALE to a larger scale multiplies by the largest power of ten that fits 96 bits (R130, R131, closed form of R133):
the logical value is kept, and CAP says whether it stopped early. -/
def Obligations.RescaleUpKeepsTheValueUntilCapped : Prop :=
  ∀ (rd : RegNum) (imm : BitVec 8) (s : State), imm.toNat ≤ 28 → s.scale rd < imm.toNat →
    ∃ t j, exec (.rescale rd imm) s = .next t ∧ s.scale rd + j ≤ imm.toNat ∧
      t.val rd .three = s.val rd .three * 10 ^ j ∧
      (s.scale rd + j = imm.toNat ∨ 2 ^ 96 ≤ s.val rd .three * 10 ^ (j + 1)) ∧
      FlagWord (t.reg rd).flags (decide (s.val rd .three ≠ 0) && (s.reg rd).flags.getLsbD 31) (s.scale rd + j) ∧
      (t.reg rd).ext = (s.reg rd).ext ∧
      CompletedWith t rd .three (s.scale rd + j) false 0 false (decide (s.scale rd + j < imm.toNat)) ∧
      OthersSame rd s t

/-- RESCALE to the register's own scale writes no register, and a target above 28 is the error outcome (R131). -/
def Obligations.RescaleToTheSameScaleOrAboveTheLimit : Prop :=
  ∀ (rd : RegNum) (imm : BitVec 8) (s : State),
    (28 < imm.toNat → ∃ t, exec (.rescale rd imm) s = .next t ∧ ErrorOutcome s t) ∧
    (imm.toNat ≤ 28 → s.scale rd = imm.toNat → ∃ t, exec (.rescale rd imm) s = .next t ∧ NoRegisterWritten s t ∧
      CompletedWith t rd .three imm.toNat false 0 false false)

/-- ALIGN of two registers at different scales raises the one at the smaller scale as far as 96 bits allow, and lowers the
other to it with half-up rounding if that stopped early; both end at one scale, which is RESULT (R132). -/
def Obligations.AlignBringsBothToOneScale : Prop :=
  ∀ (rd rs low high : RegNum) (s : State), low ≠ high → (rd = low ∧ rs = high ∨ rd = high ∧ rs = low) →
    s.scale low < s.scale high →
    ∃ t j g, exec (.align rd rs) s = .next t ∧ s.scale low + j + g = s.scale high ∧
      t.val low .three = s.val low .three * 10 ^ j ∧ (g = 0 ∨ 2 ^ 96 ≤ s.val low .three * 10 ^ (j + 1)) ∧
      FlagWord (t.reg low).flags (decide (s.val low .three ≠ 0) && (s.reg low).flags.getLsbD 31) (s.scale low + j) ∧
      (g = 0 → t.reg high = s.reg high) ∧
      (0 < g → t.val high .three = (s.val high .three + 5 * 10 ^ (g - 1)) / 10 ^ g ∧
        FlagWord (t.reg high).flags (decide (t.val high .three ≠ 0) && (s.reg high).flags.getLsbD 31) (s.scale low + j)) ∧
      t.scale low = t.scale high ∧ (t.reg low).ext = (s.reg low).ext ∧ (t.reg high).ext = (s.reg high).ext ∧
      CompletedWith t rd .three (s.scale low + j) false 0
        (decide (0 < g) && decide (5 ≤ s.val high .three / 10 ^ (g - 1) % 10)) (decide (0 < g)) ∧
      (∀ r, r ≠ low → r ≠ high → t.reg r = s.reg r) ∧ t.scl = s.scl ∧ t.faultcmd = s.faultcmd ∧
      t.status.extractLsb' 11 21 = s.status.extractLsb' 11 21 ∧ SameHost s t

/-- ALIGN of a register with itself, or of two at one scale, writes no register (R132). -/
def Obligations.AlignOfEqualScalesWritesNothing : Prop :=
  ∀ (rd rs : RegNum) (s : State), rd = rs ∨ s.scale rd = s.scale rs →
    ∃ t, exec (.align rd rs) s = .next t ∧ NoRegisterWritten s t ∧
      CompletedWith t rd .three (s.scale rd) false 0 false false

/-! ### The rounding engine (45_round.md) -/

/-- R142: ROUND leaves a value with no more places than asked, and otherwise truncates to `10 ^ g` and rounds up by the
strategy's rule; a zero result loses its sign; RESULT is the scale the register then has. -/
def Obligations.RoundFollowsTheStrategy : Prop :=
  ∀ (rd : RegNum) (imm : BitVec 8) (strat : Strategy) (s : State),
    (s.scale rd ≤ imm.toNat → ∃ t, exec (.round rd imm strat) s = .next t ∧ NoRegisterWritten s t ∧
      CompletedWith t rd .three (s.scale rd) false 0 false false) ∧
    (imm.toNat < s.scale rd → ∃ t u up, exec (.round rd imm strat) s = .next t ∧ u = 10 ^ (s.scale rd - imm.toNat) ∧
      (up = true ↔ RoundUpRule strat ((s.reg rd).flags.getLsbD 31) (s.val rd .three / u) (s.val rd .three % u) u) ∧
      t.val rd .three = s.val rd .three / u + (if up then 1 else 0) ∧
      FlagWord (t.reg rd).flags (decide (t.val rd .three ≠ 0) && (s.reg rd).flags.getLsbD 31) imm.toNat ∧
      (t.reg rd).ext = (s.reg rd).ext ∧
      CompletedWith t rd .three imm.toNat false 0 up false ∧ OthersSame rd s t)

/-- What the seven strategies mean as numbers (R140): with `V` the signed mantissa before, `W` after and `u = 10 ^ g`, the
midpoint strategies land within half a unit and break a tie to even, away from zero or toward zero; the directed ones land
within one unit on their side. -/
def Obligations.RoundedValueIsTheOneTheStrategyNames : Prop :=
  ∀ (rd : RegNum) (imm : BitVec 8) (strat : Strategy) (s t : State), imm.toNat < s.scale rd →
    exec (.round rd imm strat) s = .next t →
    ∃ (u V W : Int), u = 10 ^ (s.scale rd - imm.toNat) ∧ V = s.signedMantissa rd ∧ W = t.signedMantissa rd ∧
      match strat with
      | .midpointNearestEven => 2 * |W * u - V| ≤ u ∧ (2 * |W * u - V| = u → W % 2 = 0)
      | .midpointAwayFromZero => 2 * |W * u - V| ≤ u ∧ (2 * |W * u - V| = u → |V| < |W * u|)
      | .midpointTowardZero => 2 * |W * u - V| ≤ u ∧ (2 * |W * u - V| = u → |W * u| < |V|)
      | .toZero => |W * u| ≤ |V| ∧ |V| - |W * u| < u
      | .awayFromZero => |V| ≤ |W * u| ∧ |W * u| - |V| < u
      | .toPositiveInfinity => V ≤ W * u ∧ W * u - V < u
      | .toNegativeInfinity => W * u ≤ V ∧ V - W * u < u

/-- ROUND with MidpointAwayFromZero to places below the scale does exactly what RESCALE to that scale does (95 section 4). -/
def Obligations.RoundHalfAwayIsRescale : Prop :=
  ∀ (rd : RegNum) (imm : BitVec 8) (s : State), imm.toNat ≤ 28 → imm.toNat < s.scale rd →
    exec (.round rd imm .midpointAwayFromZero) s = exec (.rescale rd imm) s
end

