-- ==== Sys2Proof/Laws/State.lean ====
section
/-! SUPPORT. One lemma per field per update of the state, and the round trips of the packed words. -/

namespace Sys2Proof.Machine

/-! ### `setReg` -/

@[simp] theorem State.reg_setReg_same (s : State) (i : RegNum) (d : DecReg) : (s.setReg i d).reg i = d := by
  cases i <;> rfl

@[simp] theorem State.reg_setReg_ne (s : State) {i j : RegNum} (d : DecReg) (h : j ≠ i) :
    (s.setReg i d).reg j = s.reg j := by
  cases i <;> cases j <;> first | rfl | exact absurd rfl h

@[simp] theorem State.setReg_scl (s : State) (i : RegNum) (d : DecReg) : (s.setReg i d).scl = s.scl := by cases i <;> rfl
@[simp] theorem State.setReg_status (s : State) (i : RegNum) (d : DecReg) : (s.setReg i d).status = s.status := by
  cases i <;> rfl
@[simp] theorem State.setReg_result (s : State) (i : RegNum) (d : DecReg) : (s.setReg i d).result = s.result := by
  cases i <;> rfl
@[simp] theorem State.setReg_faultcmd (s : State) (i : RegNum) (d : DecReg) : (s.setReg i d).faultcmd = s.faultcmd := by
  cases i <;> rfl
@[simp] theorem State.setReg_baseWord (s : State) (i : RegNum) (d : DecReg) : (s.setReg i d).baseWord = s.baseWord := by
  cases i <;> rfl
@[simp] theorem State.setReg_pending (s : State) (i : RegNum) (d : DecReg) : (s.setReg i d).pending = s.pending := by
  cases i <;> rfl
@[simp] theorem State.setReg_responses (s : State) (i : RegNum) (d : DecReg) : (s.setReg i d).responses = s.responses := by
  cases i <;> rfl

@[simp] theorem State.setReg_setReg (s : State) (i : RegNum) (d e : DecReg) : (s.setReg i d).setReg i e = s.setReg i e := by
  cases i <;> rfl

@[simp] theorem State.setReg_reg (s : State) (i : RegNum) : s.setReg i (s.reg i) = s := by
  cases i <;> rfl

/-! ### Registers seen through the other updates -/

@[simp] theorem complete_reg (rd : RegNum) (n : OpLen) (v : Nat) (f : CompletionFlags) (s : State) (r : RegNum) :
    (complete rd n v f s).reg r = s.reg r := by cases r <;> rfl
@[simp] theorem complete_scl (rd : RegNum) (n : OpLen) (v : Nat) (f : CompletionFlags) (s : State) :
    (complete rd n v f s).scl = s.scl := rfl
@[simp] theorem complete_status (rd : RegNum) (n : OpLen) (v : Nat) (f : CompletionFlags) (s : State) :
    (complete rd n v f s).status = withLow s.status (completionBits f (s.isAllZero rd n)) := rfl
@[simp] theorem complete_result (rd : RegNum) (n : OpLen) (v : Nat) (f : CompletionFlags) (s : State) :
    (complete rd n v f s).result = BitVec.ofNat 32 v := rfl
@[simp] theorem complete_faultcmd (rd : RegNum) (n : OpLen) (v : Nat) (f : CompletionFlags) (s : State) :
    (complete rd n v f s).faultcmd = s.faultcmd := rfl
@[simp] theorem complete_baseWord (rd : RegNum) (n : OpLen) (v : Nat) (f : CompletionFlags) (s : State) :
    (complete rd n v f s).baseWord = s.baseWord := rfl
@[simp] theorem complete_pending (rd : RegNum) (n : OpLen) (v : Nat) (f : CompletionFlags) (s : State) :
    (complete rd n v f s).pending = s.pending := rfl
@[simp] theorem complete_responses (rd : RegNum) (n : OpLen) (v : Nat) (f : CompletionFlags) (s : State) :
    (complete rd n v f s).responses = s.responses := rfl

@[simp] theorem errorInvalidArgument_reg (s : State) (r : RegNum) : (errorInvalidArgument s).reg r = s.reg r := by
  cases r <;> rfl
@[simp] theorem errorInvalidArgument_scl (s : State) : (errorInvalidArgument s).scl = s.scl := rfl
@[simp] theorem errorInvalidArgument_status (s : State) :
    (errorInvalidArgument s).status = withLow s.status errorBits := rfl
@[simp] theorem errorInvalidArgument_result (s : State) : (errorInvalidArgument s).result = 0#32 := rfl
@[simp] theorem errorInvalidArgument_faultcmd (s : State) : (errorInvalidArgument s).faultcmd = s.faultcmd := rfl
@[simp] theorem errorInvalidArgument_baseWord (s : State) : (errorInvalidArgument s).baseWord = s.baseWord := rfl
@[simp] theorem errorInvalidArgument_pending (s : State) : (errorInvalidArgument s).pending = s.pending := rfl
@[simp] theorem errorInvalidArgument_responses (s : State) : (errorInvalidArgument s).responses = s.responses := rfl

@[simp] theorem raiseFault_reg (c : FaultCause) (w : Word) (s : State) (r : RegNum) :
    (raiseFault c w s).reg r = s.reg r := by cases r <;> rfl
@[simp] theorem raiseFault_scl (c : FaultCause) (w : Word) (s : State) : (raiseFault c w s).scl = s.scl := rfl
@[simp] theorem raiseFault_status (c : FaultCause) (w : Word) (s : State) :
    (raiseFault c w s).status = withFault s.status c := rfl
@[simp] theorem raiseFault_result (c : FaultCause) (w : Word) (s : State) : (raiseFault c w s).result = s.result := rfl
@[simp] theorem raiseFault_faultcmd (c : FaultCause) (w : Word) (s : State) : (raiseFault c w s).faultcmd = w := rfl
@[simp] theorem raiseFault_baseWord (c : FaultCause) (w : Word) (s : State) :
    (raiseFault c w s).baseWord = s.baseWord := rfl
@[simp] theorem raiseFault_pending (c : FaultCause) (w : Word) (s : State) : (raiseFault c w s).pending = s.pending := rfl
@[simp] theorem raiseFault_responses (c : FaultCause) (w : Word) (s : State) :
    (raiseFault c w s).responses = s.responses := rfl

@[simp] theorem State.taken_reg (s : State) (rest : List HostEvent) (a : List Response) (r : RegNum) :
    (s.taken rest a).reg r = s.reg r := by cases r <;> rfl
@[simp] theorem State.taken_scl (s : State) (rest : List HostEvent) (a : List Response) : (s.taken rest a).scl = s.scl := rfl
@[simp] theorem State.taken_status (s : State) (rest : List HostEvent) (a : List Response) :
    (s.taken rest a).status = s.status := rfl
@[simp] theorem State.taken_result (s : State) (rest : List HostEvent) (a : List Response) :
    (s.taken rest a).result = s.result := rfl
@[simp] theorem State.taken_faultcmd (s : State) (rest : List HostEvent) (a : List Response) :
    (s.taken rest a).faultcmd = s.faultcmd := rfl
@[simp] theorem State.taken_baseWord (s : State) (rest : List HostEvent) (a : List Response) :
    (s.taken rest a).baseWord = s.baseWord := rfl
@[simp] theorem State.taken_pending (s : State) (rest : List HostEvent) (a : List Response) :
    (s.taken rest a).pending = rest := rfl
@[simp] theorem State.taken_responses (s : State) (rest : List HostEvent) (a : List Response) :
    (s.taken rest a).responses = s.responses ++ a := rfl

/-! ### Limbs and flag words of one register -/

@[simp] theorem DecReg.setVal_flags (d : DecReg) (n : OpLen) (v : Nat) : (d.setVal n v).flags = d.flags := by
  cases n <;> rfl

@[simp] theorem DecReg.setVal_three_ext (d : DecReg) (v : Nat) : (d.setVal .three v).ext = d.ext := rfl

/-- A limb array is below `2 ^ (32 n)`. -/
theorem DecReg.val_lt (d : DecReg) (n : OpLen) : d.val n < 2 ^ bitLen n := by
  have h0 := d.lo.isLt
  have h1 := d.mid.isLt
  have h2 := d.hi.isLt
  have h3 := d.ext.isLt
  cases n <;> simp only [DecReg.val, bitLen] <;> omega

/-- `val` after `setval` (00_scope.md R9; `setval` requires `v < 2^(32n)`). -/
theorem DecReg.val_setVal (d : DecReg) (n : OpLen) {v : Nat} (h : v < 2 ^ bitLen n) : (d.setVal n v).val n = v := by
  cases n <;> simp only [bitLen] at h <;> simp only [DecReg.setVal, DecReg.val, BitVec.toNat_ofNat] <;> omega

/-- Storing a limb array's own integer changes nothing. -/
@[simp] theorem DecReg.setVal_val (d : DecReg) (n : OpLen) : d.setVal n (d.val n) = d := by
  have h0 := d.lo.isLt
  have h1 := d.mid.isLt
  have h2 := d.hi.isLt
  have h3 := d.ext.isLt
  cases d
  cases n <;> simp only [DecReg.setVal, DecReg.val, DecReg.mk.injEq, ← BitVec.toNat_inj, BitVec.toNat_ofNat,
    true_and, and_true] at * <;> refine ⟨?_, ?_, ?_⟩ <;> (try refine ⟨?_, ?_⟩) <;> omega

/-- A second `setval` of the same length replaces the first. -/
@[simp] theorem DecReg.setVal_setVal (d : DecReg) (n : OpLen) (v w : Nat) : (d.setVal n v).setVal n w = d.setVal n w := by
  cases n <;> rfl

theorem flagSign_packFlags (sg : Bool) {sc : Nat} (h : sc < 256) : flagSign (packFlags sg sc) = sg := by
  have h15 : (BitVec.ofNat 32 sc).getLsbD 15 = false := by
    rw [BitVec.getLsbD_ofNat, Nat.testBit_lt_two_pow (show sc < 2 ^ 15 by omega)]
    rfl
  simp only [BitVec.getLsbD_eq_getElem, Nat.reduceLT] at h15
  cases sg <;> simp [flagSign, packFlags, h15]

theorem flagScale_packFlags (sg : Bool) {sc : Nat} (h : sc < 256) : flagScale (packFlags sg sc) = sc := by
  have : (packFlags sg sc).extractLsb' 16 8 = BitVec.ofNat 8 sc := by
    ext i hi
    interval_cases i <;> simp [packFlags, ← BitVec.getLsbD_eq_getElem, BitVec.getLsbD_ofNat]
  simp [flagScale, this, Nat.mod_eq_of_lt h]

theorem legalFlags_packFlags (sg : Bool) {sc : Nat} (h : sc ≤ 28) : legalFlags (packFlags sg sc) = true := by
  interval_cases sc <;> cases sg <;> decide

theorem flagScale_lt (w : Word) : flagScale w < 256 := (w.extractLsb' 16 8).isLt

/-! ### The fields of STATUS after its writers -/

theorem withLow_getLsbD_low (w : Word) (low : BitVec 11) {k : Nat} (h : k < 11) :
    (withLow w low).getLsbD k = low.getLsbD k := by
  interval_cases k <;> simp [withLow]

theorem withLow_getLsbD_high (w : Word) (low : BitVec 11) {k : Nat} (h : 11 ≤ k) :
    (withLow w low).getLsbD k = w.getLsbD k := by
  by_cases h32 : k < 32
  · interval_cases k <;> simp [withLow]
  · simp [BitVec.getLsbD_of_ge _ _ (Nat.le_of_not_lt h32)]

theorem withFault_getLsbD_low (w : Word) (c : FaultCause) {k : Nat} (h : k < 28) :
    (withFault w c).getLsbD k = w.getLsbD k := by
  interval_cases k <;> simp [withFault]

@[simp] theorem withFault_fault (w : Word) (c : FaultCause) : (withFault w c).getLsbD 31 = true := by
  simp [withFault]

@[simp] theorem withFault_fcause (w : Word) (c : FaultCause) : (withFault w c).extractLsb' 28 3 = c.code := by
  ext i hi
  cases c <;> interval_cases i <;> simp [withFault, FaultCause.code]

end Sys2Proof.Machine
end

