-- ==== Sys2Proof/Laws/Ops.lean ====
section
/-! SUPPORT. One lemma per shared operation, saying once everything it does, for citing instead of unfolding. -/

namespace Sys2Proof.Machine

/-! ### STATUS -/

@[simp] theorem withLow_extract_high (w : Word) (low : BitVec 11) :
    (withLow w low).extractLsb' 11 21 = w.extractLsb' 11 21 := by
  ext i hi
  simp only [BitVec.getElem_extractLsb']
  exact withLow_getLsbD_high w low (by omega)

@[simp] theorem withLow_extract_low (w : Word) (low : BitVec 11) : (withLow w low).extractLsb' 0 11 = low := by
  ext i hi
  simp only [BitVec.getElem_extractLsb', Nat.zero_add]
  rw [withLow_getLsbD_low w low hi, BitVec.getLsbD_eq_getElem hi]

/-- A field below bit 11 of a rewritten STATUS is the field of the new low bits. -/
theorem withLow_extract_within (w : Word) (low : BitVec 11) {k n : Nat} (h : k + n ≤ 11) :
    (withLow w low).extractLsb' k n = low.extractLsb' k n := by
  ext i hi
  simp only [BitVec.getElem_extractLsb']
  exact withLow_getLsbD_low w low (by omega)

/-- A field from bit 11 up of a rewritten STATUS is the old one. -/
theorem withLow_extract_above (w : Word) (low : BitVec 11) {k n : Nat} (h : 11 ≤ k) :
    (withLow w low).extractLsb' k n = w.extractLsb' k n := by
  ext i hi
  simp only [BitVec.getElem_extractLsb']
  exact withLow_getLsbD_high w low (by omega)

/-- A field below bit 28 survives fault entry. -/
theorem withFault_extract_within (w : Word) (c : FaultCause) {k n : Nat} (h : k + n ≤ 28) :
    (withFault w c).extractLsb' k n = w.extractLsb' k n := by
  ext i hi
  simp only [BitVec.getElem_extractLsb']
  exact withFault_getLsbD_low w c (by omega)

/-- The fields of `completionBits` (10_state.md R33). -/
theorem completionBits_fields (f : CompletionFlags) (z : Bool) :
    (completionBits f z).getLsbD 0 = f.c ∧ (completionBits f z).getLsbD 1 = z ∧
      ((completionBits f z).extractLsb' 2 2).toNat = f.ord.code ∧ (completionBits f z).getLsbD 4 = f.rnd ∧
      (completionBits f z).getLsbD 5 = f.cap ∧ (completionBits f z).extractLsb' 6 5 = 0#5 := by
  obtain ⟨c, ord, rnd, cap⟩ := f
  cases c <;> cases ord <;> cases rnd <;> cases cap <;> cases z <;> decide

/-! ### How a command ends -/

/-- `complete` sets RESULT and STATUS[10:0] as 10_state.md R33 says. -/
theorem complete_completedWith (rd : RegNum) (n : OpLen) {v : Nat} (f : CompletionFlags) (s : State) (h : v < 2 ^ 32) :
    CompletedWith (complete rd n v f s) rd n v f.c f.ord.code f.rnd f.cap := by
  obtain ⟨h0, h1, h2, h3, h4, h5⟩ := completionBits_fields f (s.isAllZero rd n)
  refine ⟨?_, ?_, ?_, ?_, ?_, ?_, ?_⟩
  · rw [complete_result, BitVec.toNat_ofNat, Nat.mod_eq_of_lt h]
  · rw [complete_status, withLow_getLsbD_low _ _ (by omega), h0]
  · rw [complete_status, withLow_getLsbD_low _ _ (by omega), h1]
    simp [State.val, State.isAllZero, beq_eq_decide]
  · rw [complete_status, withLow_extract_within _ _ (by omega), h2]
  · rw [complete_status, withLow_getLsbD_low _ _ (by omega), h3]
  · rw [complete_status, withLow_getLsbD_low _ _ (by omega), h4]
  · rw [complete_status, withLow_extract_within _ _ (by omega), h5]

/-- `complete` writes nothing else. -/
theorem complete_noRegisterWritten (rd : RegNum) (n : OpLen) (v : Nat) (f : CompletionFlags) (s : State) :
    NoRegisterWritten s (complete rd n v f s) :=
  ⟨fun r => complete_reg rd n v f s r, rfl, rfl, by simp, rfl, rfl, rfl⟩

/-- The error outcome is 60_exceptions.md R175. -/
theorem errorInvalidArgument_errorOutcome (s : State) : ErrorOutcome s (errorInvalidArgument s) :=
  ⟨rfl, by simp [errorBits], fun r => errorInvalidArgument_reg s r, rfl, rfl, by simp, rfl, rfl, rfl⟩

/-- Fault entry is 60_exceptions.md R172. -/
theorem raiseFault_faultEntered (c : FaultCause) (w : Word) (s : State) : FaultEntered c w s (raiseFault c w s) :=
  ⟨by simp, by simp, rfl, withFault_extract_within s.status c (by omega), fun r => raiseFault_reg c w s r, rfl, rfl,
    rfl, rfl, rfl⟩

/-- After RESET every word of the LKU is as in `State.reset`, and the host's side is as before. -/
theorem applyReset_spec (s : State) : SameUnit State.reset (applyReset s) ∧ SameHost s (applyReset s) :=
  ⟨⟨fun r => by cases r <;> rfl, rfl, rfl, rfl, rfl⟩, rfl, rfl, rfl⟩

/-! ### Register writes -/

/-- Replacing register `rd` leaves everything else. -/
theorem setReg_othersSame (s : State) (rd : RegNum) (d : DecReg) : OthersSame rd s (s.setReg rd d) :=
  ⟨fun r h => State.reg_setReg_ne s d h, by simp, by simp, by simp, by simp, by simp, by simp⟩

/-- `OthersSame` composes. -/
theorem OthersSame.trans {rd : RegNum} {s t u : State} (h : OthersSame rd s t) (k : OthersSame rd t u) :
    OthersSame rd s u :=
  ⟨fun r hr => (k.1 r hr).trans (h.1 r hr), k.2.1.trans h.2.1, k.2.2.1.trans h.2.2.1, k.2.2.2.1.trans h.2.2.2.1,
    k.2.2.2.2.1.trans h.2.2.2.2.1, k.2.2.2.2.2.1.trans h.2.2.2.2.2.1, k.2.2.2.2.2.2.trans h.2.2.2.2.2.2⟩

/-- A completion leaves every register, so it leaves all but `rd`. -/
theorem complete_othersSame (r rd : RegNum) (n : OpLen) (v : Nat) (f : CompletionFlags) (s : State) :
    OthersSame r s (complete rd n v f s) :=
  ⟨fun r' _ => complete_reg rd n v f s r', rfl, rfl, by simp, rfl, rfl, rfl⟩

@[simp] theorem State.setVal_reg_same (s : State) (rd : RegNum) (n : OpLen) (v : Nat) :
    (s.setVal rd n v).reg rd = (s.reg rd).setVal n v := by simp [State.setVal]

@[simp] theorem State.setFlags_reg_same (s : State) (rd : RegNum) (w : Word) :
    (s.setFlags rd w).reg rd = { s.reg rd with flags := w } := by simp [State.setFlags]

/-- `val` after `setval` (00_scope.md R9). -/
theorem State.val_setVal (s : State) (rd : RegNum) (n : OpLen) {v : Nat} (h : v < 2 ^ bitLen n) :
    (s.setVal rd n v).val rd n = v := by
  simp only [State.val, State.setVal_reg_same]
  exact DecReg.val_setVal _ n h

theorem State.val_lt (s : State) (rd : RegNum) (n : OpLen) : s.val rd n < 2 ^ bitLen n := by
  unfold State.val
  exact DecReg.val_lt _ n

/-- `val` is injective on the limbs of an operating length: two registers with the same FLAGS, the same integer and, over
three limbs, the same EXT are equal. -/
theorem DecReg.eq_of_val_eq {d e : DecReg} {n : OpLen} (hf : d.flags = e.flags) (he : n = .three → d.ext = e.ext)
    (hv : d.val n = e.val n) : d = e := by
  calc d = d.setVal n (d.val n) := (DecReg.setVal_val d n).symm
    _ = e.setVal n (e.val n) := by
      rw [hv]
      cases n
      · simp only [DecReg.setVal, hf, he rfl]
      · simp only [DecReg.setVal, hf]
    _ = e := DecReg.setVal_val e n

@[simp] theorem complete_val (rd : RegNum) (n n' : OpLen) (v : Nat) (f : CompletionFlags) (s : State) (r : RegNum) :
    (complete rd n v f s).val r n' = s.val r n' := by simp [State.val]

@[simp] theorem State.setFs_reg_same (s : State) (i : RegNum) (sg : Bool) (sc : Nat) :
    (s.setFs i sg sc).reg i = { s.reg i with flags := packFlags sg sc } := by simp [State.setFs]

/-- `setfs` changes no limb. -/
@[simp] theorem State.setFs_val (s : State) (i j : RegNum) (n : OpLen) (sg : Bool) (sc : Nat) :
    (s.setFs i sg sc).val j n = s.val j n := by
  unfold State.val
  by_cases h : j = i
  · subst h
    rw [State.setFs_reg_same]
    cases n <;> rfl
  · simp [State.setFs, State.setFlags, h]

theorem State.setFs_othersSame (s : State) (i : RegNum) (sg : Bool) (sc : Nat) : OthersSame i s (s.setFs i sg sc) :=
  setReg_othersSame s i _

theorem State.setVal_othersSame (s : State) (i : RegNum) (n : OpLen) (v : Nat) : OthersSame i s (s.setVal i n v) :=
  setReg_othersSame s i _

theorem State.setVal_setFs_othersSame (s : State) (i : RegNum) (v : Nat) (sg : Bool) (sc : Nat) :
    OthersSame i s ((s.setVal i .three v).setFs i sg sc) :=
  (State.setVal_othersSame s i .three v).trans (State.setFs_othersSame _ i sg sc)

theorem State.scale_lt (s : State) (i : RegNum) : s.scale i < 256 := flagScale_lt _

/-- The flag word the packer builds (00_scope.md R9 `setfs`). -/
theorem packFlags_flagWord (sg : Bool) {sc : Nat} (h : sc < 256) : FlagWord (packFlags sg sc) sg sc := by
  have h15 (k : Nat) (hk : 8 ≤ k) : sc.testBit k = false :=
    Nat.testBit_lt_two_pow (Nat.lt_of_lt_of_le h (Nat.pow_le_pow_right (by omega) hk : 2 ^ 8 ≤ 2 ^ k))
  refine ⟨flagSign_packFlags sg h, flagScale_packFlags sg h, ?_, ?_⟩
  · ext i hi
    simp only [BitVec.getElem_extractLsb', packFlags, BitVec.getLsbD_or, BitVec.getLsbD_shiftLeft, BitVec.getLsbD_ofNat,
      BitVec.getLsbD_setWidth, BitVec.getLsbD_ofBool]
    rw [h15 _ (by omega)]
    have : 24 + i < 31 := by omega
    simp [this]
  · ext i hi
    simp only [BitVec.getElem_extractLsb', packFlags, BitVec.getLsbD_or, BitVec.getLsbD_shiftLeft]
    have : 0 + i < 31 := by omega
    have : 0 + i < 16 := by omega
    simp [*]
    omega

/-- The check of 20_memory.md R56 is `FlagsLegal`. -/
theorem legalFlags_iff (w : Word) : legalFlags w = true ↔ FlagsLegal w := by
  simp only [legalFlags, and_assoc, Bool.and_eq_true, beq_iff_eq, decide_eq_true_iff]
  rfl

/-- The radix of an operating length as a power of two. -/
theorem radix_eq_two_pow (n : OpLen) : radix n = 2 ^ bitLen n := by cases n <;> rfl

/-! ### The limb kernel -/

/-- A kernel result `t` whose overflow fits RESULT: the integer splits into RD and RESULT, C says whether RESULT is not 0,
Z whether RD is 0, and nothing else changes (41_limb_add_sub.md R100). -/
theorem storeWrapped_spec (rd : RegNum) (n : OpLen) (t : Nat) (s : State) (h : t / 2 ^ bitLen n < 2 ^ 32) :
    (storeWrapped rd n t s).val rd n = t % 2 ^ bitLen n ∧
      CompletedWith (storeWrapped rd n t s) rd n (t / 2 ^ bitLen n) (t / 2 ^ bitLen n != 0) 0 false false ∧
      LimbsOnly rd n s (storeWrapped rd n t s) := by
  refine ⟨?_, ?_, ?_, ?_, ?_⟩
  · have : (storeWrapped rd n t s).val rd n = (s.setVal rd n (t % 2 ^ bitLen n)).val rd n := by
      simp [storeWrapped, State.val]
    rw [this]
    exact State.val_setVal s rd n (Nat.mod_lt _ (Nat.two_pow_pos _))
  · exact complete_completedWith rd n _ _ h
  · exact (setReg_othersSame s rd _).trans (complete_othersSame rd rd n _ _ _)
  · simp [storeWrapped]
  · rintro rfl
    simp [storeWrapped]

/-- The quotient and the remainder by a scalar that fits 32 bits (42_limb_mul_div.md R113). -/
theorem storeQuotient_spec (rd : RegNum) (n : OpLen) {k : Nat} (s : State) (h0 : 0 < k) (h : k < 2 ^ 32) :
    (storeQuotient rd n k s).val rd n = s.val rd n / k ∧
      CompletedWith (storeQuotient rd n k s) rd n (s.val rd n % k) false 0 false false ∧
      LimbsOnly rd n s (storeQuotient rd n k s) := by
  have hr := Nat.mod_lt (s.val rd n) h0
  have hq : s.val rd n / k < 2 ^ bitLen n := Nat.lt_of_le_of_lt (Nat.div_le_self _ _) (State.val_lt s rd n)
  have hv : (storeQuotient rd n k s).val rd n = (s.setVal rd n (s.val rd n / k)).val rd n := by
    simp [storeQuotient, State.val]
  refine ⟨hv.trans (State.val_setVal s rd n hq), complete_completedWith rd n _ _ (Nat.lt_trans hr h), ?_, ?_, ?_⟩
  · exact (setReg_othersSame s rd _).trans (complete_othersSame rd rd n _ _ _)
  · simp [storeQuotient]
  · rintro rfl
    simp [storeQuotient]

/-- The table holds the powers of ten (10_state.md R36). -/
theorem pow10_eq {k : Nat} (h : k ≤ 9) : pow10 k = 10 ^ k := by
  interval_cases k <;> rfl

/-! ### Comparison (43_limb_shift_compare.md R122) -/

@[simp] theorem compareNat_self (a : Nat) : compareNat a a = .equal := by simp [compareNat]

theorem compareNat_of_lt {a b : Nat} (h : a < b) : compareNat a b = .less := by
  simp [compareNat, h, Nat.ne_of_lt h]

theorem compareNat_of_gt {a b : Nat} (h : b < a) : compareNat a b = .greater := by
  simp [compareNat, Nat.not_lt_of_gt h, Nat.ne_of_gt h]

/-! ### The rescaler's loops -/

/-- `d` single divisions by 10, none met by a zero mantissa: the quotient by `10 ^ d` and the last digit dropped. -/
theorem reduceDigits_some {d m rem m' rem' : Nat} (h : reduceDigits d m rem = some (m', rem')) :
    m' = m / 10 ^ d ∧ (0 < d → rem' = m / 10 ^ (d - 1) % 10) := by
  induction d generalizing m rem with
  | zero =>
    simp only [reduceDigits, Option.some.injEq, Prod.mk.injEq] at h
    simp [h.1]
  | succ d ih =>
    unfold reduceDigits at h
    split at h
    · cases h
    · obtain ⟨h1, h2⟩ := ih h
      refine ⟨by rw [h1, Nat.div_div_eq_div_mul, Nat.pow_succ'], fun _ => ?_⟩
      cases d with
      | zero =>
        simp only [reduceDigits, Option.some.injEq, Prod.mk.injEq] at h
        simp [← h.2]
      | succ e =>
        rw [h2 (by omega), Nat.div_div_eq_div_mul]
        simp only [Nat.add_sub_cancel]
        rw [Nat.pow_succ']

/-- A zero mantissa met before the last division: everything kept, and the digit after it, would be zero. -/
theorem reduceDigits_none {d m rem : Nat} (h : reduceDigits d m rem = none) : 0 < d ∧ m < 10 ^ (d - 1) := by
  induction d generalizing m rem with
  | zero => simp [reduceDigits] at h
  | succ d ih =>
    unfold reduceDigits at h
    split at h
    · simp_all
    · obtain ⟨h1, h2⟩ := ih h
      refine ⟨by omega, ?_⟩
      have : (10 : Nat) ^ (d + 1 - 1) = 10 ^ (d - 1) * 10 := by
        rw [← Nat.pow_succ]; congr 1; omega
      rw [this]
      omega

/-- The increasing loop stops at the largest step count whose product fits 96 bits (44_rescale_align.md R133). -/
theorem raiseDigits_spec (d m : Nat) (h : m < 2 ^ 96) :
    (raiseDigits d m).2 ≤ d ∧ (raiseDigits d m).1 = m * 10 ^ (d - (raiseDigits d m).2) ∧ (raiseDigits d m).1 < 2 ^ 96 ∧
      ((raiseDigits d m).2 = 0 ∨ 2 ^ 96 ≤ (raiseDigits d m).1 * 10) := by
  induction d generalizing m with
  | zero => exact ⟨Nat.le_refl _, by simp [raiseDigits], h, .inl rfl⟩
  | succ d ih =>
    unfold raiseDigits
    split
    · rename_i hlt
      obtain ⟨h1, h2, h3, h4⟩ := ih (m * 10) hlt
      refine ⟨by omega, ?_, h3, h4⟩
      rw [h2, Nat.mul_assoc, ← Nat.pow_succ', Nat.succ_sub h1]
    · rename_i hge
      exact ⟨Nat.le_refl _, by simp, h, .inr (Nat.le_of_not_lt hge)⟩

/-! ### The rescaler (44_rescale_align.md R130, R133) -/

/-- Half-up rounding in closed form: adding half a unit before dividing is looking at the leading dropped digit (R133). -/
theorem half_up_closed (m k : Nat) :
    (m + 5 * 10 ^ k) / 10 ^ (k + 1) = m / 10 ^ (k + 1) + (if 5 ≤ m / 10 ^ k % 10 then 1 else 0) := by
  have hp : 0 < 10 ^ k := Nat.pow_pos (by omega)
  rw [Nat.pow_succ, ← Nat.div_div_eq_div_mul, ← Nat.div_div_eq_div_mul, Nat.add_mul_div_right _ _ hp]
  split <;> omega

/-- `rescale_reg` to the register's own scale does nothing (R130). -/
theorem rescaleReg_same (i : RegNum) (s : State) :
    rescaleReg i (s.scale i) s = { state := s, rnd := false, cap := false } := by simp [rescaleReg]

/-- `rescale_reg` to a smaller scale: half-up rounding of the magnitude, a zero result loses its sign (R130). -/
theorem rescaleReg_down (i : RegNum) (ts : Nat) (s : State) (h : ts < s.scale i) :
    ∃ t g, g = s.scale i - ts ∧
      rescaleReg i ts s = { state := t, rnd := decide (5 ≤ s.val i .three / 10 ^ (g - 1) % 10), cap := false } ∧
      t.val i .three = (s.val i .three + 5 * 10 ^ (g - 1)) / 10 ^ g ∧
      (t.reg i).flags = packFlags (decide (t.val i .three ≠ 0) && (s.reg i).flags.getLsbD 31) ts ∧
      (t.reg i).ext = (s.reg i).ext ∧
      OthersSame i s t := by
  obtain ⟨k, hk⟩ : ∃ k, s.scale i - ts = k + 1 := ⟨s.scale i - ts - 1, by omega⟩
  have hlt := State.val_lt s i .three
  have hp : 0 < 10 ^ k := Nat.pow_pos (by omega)
  unfold rescaleReg
  rw [if_neg (by omega)]
  by_cases h0 : s.val i .three = 0
  · rw [if_pos h0]
    refine ⟨s.setFs i false ts, k + 1, hk.symm, ?_, ?_, ?_, ?_, State.setFs_othersSame _ _ _ _⟩
    · simp [h0]
    · rw [State.setFs_val, h0, Nat.add_sub_cancel, half_up_closed]; simp
    · rw [State.setFs_reg_same, State.setFs_val, h0]; simp
    · rw [State.setFs_reg_same]
  · rw [if_neg h0, if_pos h]
    unfold reduceReg
    split
    · rename_i hn
      rw [hk] at hn
      obtain ⟨h1, h2⟩ := reduceDigits_none hn
      simp only [Nat.add_sub_cancel] at h2
      have h3 : s.val i .three / 10 ^ k = 0 := Nat.div_eq_of_lt h2
      have h4 : s.val i .three / 10 ^ (k + 1) = 0 := Nat.div_eq_of_lt (by rw [Nat.pow_succ]; omega)
      have hv : ((s.setVal i .three 0).setFs i false ts).val i .three = 0 := by
        rw [State.setFs_val, State.val_setVal _ _ _ (Nat.two_pow_pos _)]
      refine ⟨(s.setVal i .three 0).setFs i false ts, k + 1, hk.symm, ?_, ?_, ?_, ?_,
        State.setVal_setFs_othersSame _ _ _ _ _⟩
      · simp [h3]
      · rw [hv, Nat.add_sub_cancel, half_up_closed, h4]; simp [h3]
      · rw [hv, State.setFs_reg_same]; simp
      · rw [State.setFs_reg_same]; simp
    · rename_i m rem hn
      rw [hk] at hn
      obtain ⟨h1, h2⟩ := reduceDigits_some hn
      have h2 := h2 (by omega)
      simp only [Nat.add_sub_cancel] at h2
      have hq : m < 2 ^ 96 - 1 := by
        rw [h1, Nat.div_lt_iff_lt_mul (Nat.pow_pos (by omega)), Nat.pow_succ]
        simp [bitLen] at hlt
        have : (2^96 - 1) * 1 ≤ (2^96 - 1) * 10 ^ k := Nat.mul_le_mul_left _ hp
        omega
      have hv : ((s.setVal i .three (halfUp m rem)).setFs i (halfUp m rem != 0 && s.sign i) ts).val i .three =
          halfUp m rem := by
        rw [State.setFs_val, State.val_setVal _ _ _ (by simp only [halfUp, bitLen]; split <;> omega)]
      refine ⟨(s.setVal i .three (halfUp m rem)).setFs i (halfUp m rem != 0 && s.sign i) ts, k + 1, hk.symm,
        ?_, ?_, ?_, ?_, State.setVal_setFs_othersSame _ _ _ _ _⟩
      · simp [h2]
      · rw [hv, Nat.add_sub_cancel, half_up_closed, ← h1, ← h2, halfUp]; split <;> rfl
      · rw [hv, State.setFs_reg_same]; simp [State.sign, flagSign, bne, BEq.beq]
      · rw [State.setFs_reg_same]; simp

/-- `rescale_reg` to a larger scale: the largest power of ten that fits 96 bits (R130). -/
theorem rescaleReg_up (i : RegNum) (ts : Nat) (s : State) (h : s.scale i < ts) :
    ∃ t j, rescaleReg i ts s = { state := t, rnd := false, cap := decide (s.scale i + j < ts) } ∧
      s.scale i + j ≤ ts ∧
      t.val i .three = s.val i .three * 10 ^ j ∧ (s.scale i + j = ts ∨ 2 ^ 96 ≤ s.val i .three * 10 ^ (j + 1)) ∧
      (t.reg i).flags = packFlags (decide (s.val i .three ≠ 0) && (s.reg i).flags.getLsbD 31) (s.scale i + j) ∧
      (t.reg i).ext = (s.reg i).ext ∧
      OthersSame i s t := by
  unfold rescaleReg
  rw [if_neg (by omega)]
  by_cases h0 : s.val i .three = 0
  · rw [if_pos h0]
    refine ⟨s.setFs i false ts, ts - s.scale i, ?_, by omega, ?_, .inl (by omega), ?_, ?_,
      State.setFs_othersSame _ _ _ _⟩
    · simp; omega
    · rw [State.setFs_val, h0]; simp
    · rw [State.setFs_reg_same, h0]; simp; congr 1; omega
    · rw [State.setFs_reg_same]
  · rw [if_neg h0, if_neg (by omega)]
    have hlt := State.val_lt s i .three
    simp only [bitLen] at hlt
    obtain ⟨h1, h2, h3, h4⟩ := raiseDigits_spec (ts - s.scale i) _ hlt
    unfold raiseReg
    generalize raiseDigits (ts - s.scale i) (s.val i .three) = r at *
    simp only
    refine ⟨(s.setVal i .three r.1).setFs i (s.sign i) (ts - r.2), ts - s.scale i - r.2,
      ?_, by omega, ?_, ?_, ?_, ?_, State.setVal_setFs_othersSame _ _ _ _ _⟩
    · simp; omega
    · rw [State.setFs_val, State.val_setVal _ _ _ h3, h2]
    · rcases h4 with h4 | h4
      · left; omega
      · right
        rw [show s.val i .three * 10 ^ (ts - s.scale i - r.2 + 1) = r.1 * 10 by rw [h2, Nat.pow_succ, Nat.mul_assoc]]
        exact h4
    · rw [State.setFs_reg_same]
      simp only [State.sign, flagSign, show s.scale i + (ts - s.scale i - r.2) = ts - r.2 by omega]
      simp [h0]
    · rw [State.setFs_reg_same]; simp

/-! ### The step -/

/-- A step with an event queued performs it, with the queue shortened and the answer recorded. -/
theorem step_of_pending {s : State} {e : HostEvent} {rest : List HostEvent} (h : s.pending = e :: rest) :
    step s = perform e (s.taken rest (respond e s)) := by
  unfold step busStep
  rw [h]

/-- A step of an idle LKU changes nothing (60_exceptions.md R184). -/
theorem step_of_idle {s : State} (h : s.pending = []) : step s = .next s := by
  unfold step busStep
  rw [h]

/-! ### The register map -/

/-- The offset table and the offset formulas of 20_memory.md R51 agree. -/
theorem mapRegAt_mapOffset (m : MapReg) : mapRegAt (mapOffset m) = some m := by
  cases m <;> first | rfl | (rename_i i; cases i <;> rfl)

theorem mapOffset_of_mapRegAt {off : Nat} {m : MapReg} (h : mapRegAt off = some m) : mapOffset m = off := by
  unfold mapRegAt at h
  split at h <;> first | (cases h; rfl) | cases h

/-- An aligned word access names the word of its offset (20_memory.md R51, R54). -/
theorem locate_mapOffset (s : State) (m : MapReg) : s.locate (s.base + mapOffset m) 4 = some m := by
  have h : mapOffset m % 4 = 0 := by
    cases m <;> simp only [mapOffset] <;> (try rename_i i; cases i) <;> simp [RegNum.index]
  have hb : (s.base + mapOffset m) % 4 = 0 := by simp only [State.base]; omega
  simp [State.locate, hb, mapRegAt_mapOffset]

/-- An access that names a word has 4 bytes, at that word's address. -/
theorem locate_eq_some {s : State} {addr n : Nat} {m : MapReg} (h : s.locate addr n = some m) :
    n = 4 ∧ addr = s.base + mapOffset m := by
  unfold State.locate at h
  split at h
  · rename_i hc
    have := mapOffset_of_mapRegAt h
    exact ⟨hc.1, by omega⟩
  · cases h

/-- The bytes of a word put together again (20_memory.md R52). -/
@[simp] theorem dataWord_bytesOfWord (w : Word) : dataWord (bytesOfWord w) = w := by
  simp only [dataWord, bytesOfWord, wordOfBytes]
  ext i hi
  interval_cases i <;> simp

@[simp] theorem bytesOfWord_length (w : Word) : (bytesOfWord w).length = 4 := rfl

end Sys2Proof.Machine
end

