-- ==== Sys2Proof/Laws/PerInstr.lean ====
section
/-! SUPPORT. The family MatchesRow: the word of every command has the fixed bits of its own row of the opcode table
(30_encoding.md R74). -/

namespace Sys2Proof

/-- The word of `i` selects the row of `i`. -/
def Laws.MatchesRow.Statement (i : Instr) : Prop := i.op.selects (encode i) = true

/-- A row whose mask leaves IMM free selects a word whatever its IMM is. -/
theorem selects_packFields_imm (o : Op) (h : o.mask.extractLsb' 8 8 = 0#8) (opc : BitVec 8) (rd rs : BitVec 2)
    (dl sl ci : BitVec 1) (imm : BitVec 8) (strat : BitVec 3) :
    o.selects (packFields opc rd rs dl sl ci imm strat) = o.selects (packFields opc rd rs dl sl ci 0#8 strat) := by
  have hm : imm.setWidth 32 <<< 8 &&& o.mask = 0#32 := by
    ext i hi
    by_cases h8 : 8 ≤ i ∧ i < 16
    · have hb : (o.mask.extractLsb' 8 8).getLsbD (i - 8) = false := by simp [h]
      have h9 : i - 8 < 8 := by omega
      have h10 : 8 + (i - 8) = i := by omega
      simp only [BitVec.getLsbD_extractLsb', h9, h10, decide_true, Bool.true_and] at hb
      simp [← BitVec.getLsbD_eq_getElem, hb]
    · have : (imm.setWidth 32 <<< 8).getLsbD i = false := by
        by_cases h7 : i < 8
        · simp [h7]
        · have : imm.getLsbD (i - 8) = false := BitVec.getLsbD_of_ge _ _ (by omega)
          simp [this]
      simp [← BitVec.getLsbD_eq_getElem] at this ⊢
      simp_all
  have hd (x y : Word) : (x ||| imm.setWidth 32 <<< 8 ||| y) &&& o.mask = (x ||| (0#8).setWidth 32 <<< 8 ||| y) &&& o.mask := by
    ext i hi
    have := congrArg (fun v => v.getLsbD i) hm
    simp only [BitVec.getLsbD_and, BitVec.getLsbD_zero] at this
    simp only [← BitVec.getLsbD_eq_getElem, BitVec.getLsbD_and, BitVec.getLsbD_or]
    revert this
    cases x.getLsbD i <;> cases (imm.setWidth 32 <<< 8).getLsbD i <;> cases o.mask.getLsbD i <;> simp
  simp only [Op.selects, packFields, hd]

theorem Laws.MatchesRow.add (rd rs : RegNum) (dl sl : OpLen) : Laws.MatchesRow.Statement (.add rd rs dl sl) := by
  unfold Laws.MatchesRow.Statement
  cases rd <;> cases rs <;> cases dl <;> cases sl <;> decide

theorem Laws.MatchesRow.adds (rd : RegNum) (dl : OpLen) : Laws.MatchesRow.Statement (.adds rd dl) := by
  unfold Laws.MatchesRow.Statement
  cases rd <;> cases dl <;> decide

theorem Laws.MatchesRow.inc (rd : RegNum) (dl : OpLen) : Laws.MatchesRow.Statement (.inc rd dl) := by
  unfold Laws.MatchesRow.Statement
  cases rd <;> cases dl <;> decide

theorem Laws.MatchesRow.sub (rd rs : RegNum) (dl sl : OpLen) : Laws.MatchesRow.Statement (.sub rd rs dl sl) := by
  unfold Laws.MatchesRow.Statement
  cases rd <;> cases rs <;> cases dl <;> cases sl <;> decide

theorem Laws.MatchesRow.muls (rd : RegNum) (dl : OpLen) : Laws.MatchesRow.Statement (.muls rd dl) := by
  unfold Laws.MatchesRow.Statement
  cases rd <;> cases dl <;> decide

theorem Laws.MatchesRow.mulp (rd : RegNum) (dl : OpLen) (imm : BitVec 8) : Laws.MatchesRow.Statement (.mulp rd dl imm) := by
  unfold Laws.MatchesRow.Statement
  rw [show (Instr.mulp rd dl imm).op = Op.mulp from rfl, encode, selects_packFields_imm _ (by decide)]
  cases rd <;> cases dl <;> decide

theorem Laws.MatchesRow.divs (rd : RegNum) (dl : OpLen) : Laws.MatchesRow.Statement (.divs rd dl) := by
  unfold Laws.MatchesRow.Statement
  cases rd <;> cases dl <;> decide

theorem Laws.MatchesRow.divp (rd : RegNum) (dl : OpLen) (imm : BitVec 8) : Laws.MatchesRow.Statement (.divp rd dl imm) := by
  unfold Laws.MatchesRow.Statement
  rw [show (Instr.divp rd dl imm).op = Op.divp from rfl, encode, selects_packFields_imm _ (by decide)]
  cases rd <;> cases dl <;> decide

theorem Laws.MatchesRow.shl1 (rd : RegNum) (dl : OpLen) (ci : Bool) : Laws.MatchesRow.Statement (.shl1 rd dl ci) := by
  unfold Laws.MatchesRow.Statement
  cases rd <;> cases dl <;> cases ci <;> decide

theorem Laws.MatchesRow.shln (rd : RegNum) (dl : OpLen) (imm : BitVec 8) : Laws.MatchesRow.Statement (.shln rd dl imm) := by
  unfold Laws.MatchesRow.Statement
  rw [show (Instr.shln rd dl imm).op = Op.shln from rfl, encode, selects_packFields_imm _ (by decide)]
  cases rd <;> cases dl <;> decide

theorem Laws.MatchesRow.cmp (rd rs : RegNum) : Laws.MatchesRow.Statement (.cmp rd rs) := by
  unfold Laws.MatchesRow.Statement
  cases rd <;> cases rs <;> decide

theorem Laws.MatchesRow.tstz (rd : RegNum) (dl : OpLen) : Laws.MatchesRow.Statement (.tstz rd dl) := by
  unfold Laws.MatchesRow.Statement
  cases rd <;> cases dl <;> decide

theorem Laws.MatchesRow.mov (rd rs : RegNum) (dl : OpLen) : Laws.MatchesRow.Statement (.mov rd rs dl) := by
  unfold Laws.MatchesRow.Statement
  cases rd <;> cases rs <;> cases dl <;> decide

theorem Laws.MatchesRow.setscale (rd : RegNum) (imm : BitVec 8) : Laws.MatchesRow.Statement (.setscale rd imm) := by
  unfold Laws.MatchesRow.Statement
  rw [show (Instr.setscale rd imm).op = Op.setscale from rfl, encode, selects_packFields_imm _ (by decide)]
  cases rd <;> decide

theorem Laws.MatchesRow.neg (rd : RegNum) : Laws.MatchesRow.Statement (.neg rd) := by
  unfold Laws.MatchesRow.Statement
  cases rd <;> decide

theorem Laws.MatchesRow.rescale (rd : RegNum) (imm : BitVec 8) : Laws.MatchesRow.Statement (.rescale rd imm) := by
  unfold Laws.MatchesRow.Statement
  rw [show (Instr.rescale rd imm).op = Op.rescale from rfl, encode, selects_packFields_imm _ (by decide)]
  cases rd <;> decide

theorem Laws.MatchesRow.align (rd rs : RegNum) : Laws.MatchesRow.Statement (.align rd rs) := by
  unfold Laws.MatchesRow.Statement
  cases rd <;> cases rs <;> decide

theorem Laws.MatchesRow.round (rd : RegNum) (imm : BitVec 8) (strat : Strategy) : Laws.MatchesRow.Statement (.round rd imm strat) := by
  unfold Laws.MatchesRow.Statement
  rw [show (Instr.round rd imm strat).op = Op.round from rfl, encode, selects_packFields_imm _ (by decide)]
  cases rd <;> cases strat <;> decide

end Sys2Proof
end

