-- ==== Sys2Proof/Tests/Slice0.lean ====
section
/-! SUPPORT. Tests of the model against the spec's own vectors (95_test_vectors.md, named T<n> or H<n>; 30_encoding.md R79),
the smoke tests of WellFormed, and for every obligation with hypotheses a concrete witness that meets them all. -/

namespace Sys2Proof.Tests

open Sys2Proof Sys2Proof.Machine

/-! ### Helpers -/

/-- A register from its five words. -/
def reg (flags lo mid hi ext : Word) : DecReg := { flags := flags, lo := lo, mid := mid, hi := hi, ext := ext }

/-- The state after reset with v0, v1 and SCL given. -/
def from01 (a b : DecReg) (scl : Word) : State := { State.reset with v0 := a, v1 := b, scl := scl }

/-- The state after reset with v2 and v3 given. -/
def from23 (a b : DecReg) (scl : Word) : State := { State.reset with v2 := a, v3 := b, scl := scl }

/-- The state of an outcome; no step of this machine faults or refuses. -/
def stateOf : StepOutcome → State
  | .next t => t
  | .fault f => nomatch f
  | .refused _ => State.reset

/-- The state after the host's write of a command word to CMD. -/
def after (s : State) (w : Nat) : State := stateOf (step (s.withFetchWord 32 w))

/-- The state after one event. -/
def afterEvent (s : State) (e : HostEvent) : State := stateOf (step { s with pending := [e] })

/-- A register file with `2^96 - 1` in v0 and 1 in v1. -/
def fullAndOne : State := from01 (reg 0 0xFFFFFFFF 0xFFFFFFFF 0xFFFFFFFF 0) (reg 0 1 0 0 0) 0

/-- v0 holds a value with `flags` and low limb `lo`. -/
def value (flags lo : Word) : State := from01 (reg flags lo 0 0 0) DecReg.zero 0

/-! ### WellFormed: one ill-formed term for each check (30_encoding.md R75) -/

theorem test_wellFormed_refuses_mulp_10 : (Instr.mulp .v0 .three 10#8).wellFormed = false := by decide
theorem test_wellFormed_refuses_divp_10 : (Instr.divp .v0 .three 10#8).wellFormed = false := by decide
theorem test_wellFormed_refuses_shln_33 : (Instr.shln .v0 .three 33#8).wellFormed = false := by decide
theorem test_wellFormed_accepts_limits : (Instr.mulp .v0 .three 9#8).wellFormed = true ∧
    (Instr.divp .v3 .four 9#8).wellFormed = true ∧ (Instr.shln .v0 .four 32#8).wellFormed = true ∧
    (Instr.setscale .v0 255#8).wellFormed = true := by decide

/-! ### Decode: every row's word from the worked encodings of R79 -/

theorem test_decode_add : decode 0x011C0000#32 = .ok (.add .v0 .v1 .four .four) := by decide
theorem test_decode_adds : decode 0x02400000#32 = .ok (.adds .v1 .three) := by decide
theorem test_decode_inc : decode 0x03C80000#32 = .ok (.inc .v3 .four) := by decide
theorem test_decode_sub : decode 0x04B00000#32 = .ok (.sub .v2 .v3 .three .three) := by decide
theorem test_decode_muls : decode 0x05000000#32 = .ok (.muls .v0 .three) := by decide
theorem test_decode_mulp : decode 0x06000900#32 = .ok (.mulp .v0 .three 9#8) := by decide
theorem test_decode_divs : decode 0x07880000#32 = .ok (.divs .v2 .four) := by decide
theorem test_decode_divp : decode 0x08400100#32 = .ok (.divp .v1 .three 1#8) := by decide
theorem test_decode_shl1 : decode 0x09010000#32 = .ok (.shl1 .v0 .three true) := by decide
theorem test_decode_shln : decode 0x0A082000#32 = .ok (.shln .v0 .four 32#8) := by decide
theorem test_decode_cmp : decode 0x0B100000#32 = .ok (.cmp .v0 .v1) := by decide
theorem test_decode_tstz : decode 0x0C800000#32 = .ok (.tstz .v2 .three) := by decide
theorem test_decode_mov : decode 0x10400000#32 = .ok (.mov .v1 .v0 .three) := by decide
theorem test_decode_setscale : decode 0x11001C00#32 = .ok (.setscale .v0 28#8) := by decide
theorem test_decode_neg : decode 0x12C00000#32 = .ok (.neg .v3) := by decide
theorem test_decode_rescale : decode 0x20000200#32 = .ok (.rescale .v0 2#8) := by decide
theorem test_decode_align : decode 0x21100000#32 = .ok (.align .v0 .v1) := by decide
theorem test_decode_round : decode 0x22400206#32 = .ok (.round .v1 2#8 .toNegativeInfinity) := by decide

/-- The pair (3, 4) decodes; its fault is the command's own (R75; 95 section 2.8). -/
theorem test_decode_length_pair : decode 0x01140000#32 = .ok (.add .v0 .v1 .three .four) := by decide

/-- The strategies by their codes (45_round.md R140). -/
theorem test_decode_strategies : decode 0x22000001#32 = .ok (.round .v0 0#8 .midpointAwayFromZero) ∧
    decode 0x22000002#32 = .ok (.round .v0 0#8 .midpointTowardZero) ∧ decode 0x22000003#32 = .ok (.round .v0 0#8 .toZero) ∧
    decode 0x2200C804#32 = .ok (.round .v0 200#8 .awayFromZero) ∧
    decode 0x22000005#32 = .ok (.round .v0 0#8 .toPositiveInfinity) := by decide

/-- 95 section 2.8: unassigned OPC, must-be-zero bits and field values, by name. -/
theorem test_decode_refuses : decode 0x00000000#32 = .error (.unassignedOpcode 0x00#8) ∧
    decode 0x0D000000#32 = .error (.unassignedOpcode 0x0D#8) ∧ decode 0x01020000#32 = .error (.mustBeZero 0x01#8) ∧
    decode 0x02040000#32 = .error (.mustBeZero 0x02#8) ∧ decode 0x09020000#32 = .error (.mustBeZero 0x09#8) ∧
    decode 0x22000080#32 = .error (.mustBeZero 0x22#8) ∧ decode 0x22000007#32 = .error .reservedStrategy ∧
    decode 0x06000A00#32 = .error (.tableIndex 10#8) ∧ decode 0x0A002100#32 = .error (.shiftAmount 33#8) := by decide

/-! ### Each command on the spec's vectors (95 sections 2.1 to 2.7) -/

/-- T1. -/
theorem test_add_carry : (after fullAndOne 0x01100000).v0 = DecReg.zero ∧ (after fullAndOne 0x01100000).result = 1#32 ∧
    (after fullAndOne 0x01100000).status = 0x00000003#32 := by decide +kernel

/-- T5. -/
theorem test_add_length_mismatch : (after fullAndOne 0x01140000).v0 = fullAndOne.v0 ∧
    (after fullAndOne 0x01140000).status = 0xA0000000#32 ∧ (after fullAndOne 0x01140000).faultcmd = 0x01140000#32 := by
  decide +kernel

/-- T9. -/
theorem test_adds_carry :
    let t := after (from01 DecReg.zero (reg 0 0xFFFFFFFF 0xFFFFFFFF 0xFFFFFFFF 0) 0xFFFFFFFF) 0x02400000
    t.v1 = reg 0 0xFFFFFFFE 0 0 0 ∧ t.result = 1#32 ∧ t.status = 0x00000001#32 := by decide +kernel

/-- T14. -/
theorem test_inc_fourth_limb :
    let t := after (from23 DecReg.zero (reg 0 0xFFFFFFFF 0xFFFFFFFF 0xFFFFFFFF 0) 0) 0x03C80000
    t.v3 = reg 0 0 0 0 1 ∧ t.result = 0#32 ∧ t.status = 0#32 := by decide +kernel

/-- T17. -/
theorem test_sub_borrow :
    let t := after (from23 DecReg.zero (reg 0 1 0 0 0) 0) 0x04B00000
    t.v2 = reg 0 0xFFFFFFFF 0xFFFFFFFF 0xFFFFFFFF 0 ∧ t.result = 1#32 ∧ t.status = 0x00000001#32 := by decide +kernel

/-- T19. -/
theorem test_sub_four_limbs :
    let t := after (from23 DecReg.zero (reg 0 1 0 0 5) 0) 0x04BC0000
    t.v2 = reg 0 0xFFFFFFFF 0xFFFFFFFF 0xFFFFFFFF 0xFFFFFFFA ∧ t.result = 1#32 := by decide +kernel

/-- T32. -/
theorem test_muls_largest_carry :
    let t := after (from01 (reg 0 0xFFFFFFFF 0xFFFFFFFF 0xFFFFFFFF 0) DecReg.zero 0xFFFFFFFF) 0x05000000
    t.v0 = reg 0 1 0xFFFFFFFF 0xFFFFFFFF 0 ∧ t.result = 0xFFFFFFFE#32 ∧ t.status = 0x00000001#32 := by decide +kernel

/-- T36. -/
theorem test_mulp_keeps_scl :
    let t := after (from01 (reg 0 0xC45 0 0 0) DecReg.zero 0x4D) 0x06000900
    t.v0 = reg 0 0x52307200 0x2DB 0 0 ∧ t.scl = 0x4D#32 ∧ t.status = 0#32 := by decide +kernel

/-- T42. -/
theorem test_divs_fourth_limb :
    let t := after (from23 (reg 0 0 0 0 1) DecReg.zero 0xA) 0x07880000
    t.v2 = reg 0 0x99999999 0x99999999 0x19999999 0 ∧ t.result = 6#32 ∧ t.status = 0#32 := by decide +kernel

/-- T47. -/
theorem test_divs_by_zero :
    let t := after (from23 (reg 0 7 0 0 0) DecReg.zero 0) 0x07800000
    t.v2 = reg 0 7 0 0 0 ∧ t.status = 0xB0000000#32 ∧ t.faultcmd = 0x07800000#32 := by decide +kernel

/-- T51. -/
theorem test_divp_remainder :
    let t := after (from01 DecReg.zero (reg 0 0xFFFFFFFF 0xFFFFFFFF 0xFFFFFFFF 0) 0) 0x08400900
    t.v1 = reg 0 0xB5A52CB9 0x4B82FA09 0x4 0 ∧ t.result = 0x206C05FF#32 ∧ t.status = 0#32 := by decide +kernel

/-- T60. -/
theorem test_shl1_carry_in :
    let t := after (from01 (reg 0 0x80000000 0 0x80000000 0) DecReg.zero 0) 0x09010000
    t.v0 = reg 0 1 1 0 0 ∧ t.result = 1#32 ∧ t.status = 0x00000001#32 := by decide +kernel

/-- T64. -/
theorem test_shln_one_limb :
    let t := after (from01 (reg 0 1 2 3 4) DecReg.zero 0) 0x0A082000
    t.v0 = reg 0 0 1 2 3 ∧ t.result = 4#32 ∧ t.status = 0x00000001#32 := by decide +kernel

/-- T70: the highest limb decides. -/
theorem test_cmp_greater :
    let t := after (from01 (reg 0 5 0 1 0) (reg 0 9 9 0 0) 0) 0x0B100000
    t.result = 2#32 ∧ t.status = 0x00000008#32 := by decide +kernel

/-- T75. -/
theorem test_cmp_less_zero :
    let t := after (from01 DecReg.zero (reg 0 1 0 0 0) 0) 0x0B100000
    t.result = 1#32 ∧ t.status = 0x00000006#32 := by decide +kernel

/-- T76: EXT is not part of a three-limb test. -/
theorem test_tstz_ignores_ext :
    let t := after (from23 (reg 0 0 0 0 1) DecReg.zero 0) 0x0C800000
    t.result = 1#32 ∧ t.status = 0x00000002#32 := by decide +kernel

/-- T80: EXT stays with DL = 0. -/
theorem test_mov_three_limbs :
    let t := after (from01 (reg 0x80030000 0xC45 0 0 9) (reg 0 1 2 3 4) 0) 0x10400000
    t.v1 = reg 0x80030000 0xC45 0 0 4 ∧ t.result = 0#32 ∧ t.status = 0#32 := by decide +kernel

/-- T84 and T85. -/
theorem test_setscale_limit : (after (value 0x80050000 0xC45) 0x11001C00).v0 = reg 0x801C0000 0xC45 0 0 0 ∧
    (after (value 0x80050000 0xC45) 0x11001D00).v0 = reg 0x80050000 0xC45 0 0 0 ∧
    (after (value 0x80050000 0xC45) 0x11001D00).status = 0x00000300#32 := by decide +kernel

/-- T90 and T87. -/
theorem test_neg_zero_and_value :
    (after (from23 DecReg.zero (reg 0x80030000 0 0 0 0) 0) 0x12C00000).v3 = reg 0x00030000 0 0 0 0 ∧
    (after (from23 DecReg.zero (reg 0x00030000 0xC45 0 0 0) 0) 0x12C00000).v3 = reg 0x80030000 0xC45 0 0 0 := by
  decide +kernel

/-- T102: half up on the magnitude. -/
theorem test_rescale_down : (after (value 0x80030000 0xC49) 0x20000200).v0 = reg 0x80020000 0x13B 0 0 0 ∧
    (after (value 0x80030000 0xC49) 0x20000200).status = 0x00000010#32 := by decide +kernel

/-- T112: capped growth. -/
theorem test_rescale_up_capped : (after (value 0 8) 0x20001C00).v0 = reg 0x001B0000 0x40000000 0xFE8401E7 0x19D971E4 0 ∧
    (after (value 0 8) 0x20001C00).result = 0x1B#32 ∧ (after (value 0 8) 0x20001C00).status = 0x00000020#32 := by
  decide +kernel

/-- T130. -/
theorem test_align_raises :
    let t := after (from01 (reg 0x00010000 0xF 0 0 0) (reg 0x00020000 0xE1 0 0 0) 0) 0x21100000
    t.v0 = reg 0x00020000 0x96 0 0 0 ∧ t.v1 = reg 0x00020000 0xE1 0 0 0 ∧ t.result = 2#32 := by decide +kernel

/-- T132: the capped register stays and the other one comes down. -/
theorem test_align_capped :
    let t := after (from01 (reg 0 0xFFFFFFFF 0xFFFFFFFF 0xFFFFFFFF 0) (reg 0x80010000 5 0 0 0) 0) 0x21100000
    t.v0 = reg 0 0xFFFFFFFF 0xFFFFFFFF 0xFFFFFFFF 0 ∧ t.v1 = reg 0x80000000 1 0 0 0 ∧ t.status = 0x00000030#32 := by
  decide +kernel

/-- T171 and S2: ties to even. -/
theorem test_round_even : (after (value 0x00020000 0xFA) 0x22000000).v0 = reg 0 2 0 0 0 ∧
    (after (value 0x00010000 0x4B) 0x22000000).v0 = reg 0 8 0 0 0 := by decide +kernel

/-- T164 and T163: the directed strategies of a negative value. -/
theorem test_round_directed : (after (value 0x80010000 4) 0x22000006).v0 = reg 0x80000000 1 0 0 0 ∧
    (after (value 0x80010000 4) 0x22000005).v0 = reg 0 0 0 0 0 := by decide +kernel

/-! ### The host's transactions (95 section 2.9, program 4) -/

/-- H1: a FLAGS write is accepted, or refused with INVALID_ARGUMENT. -/
theorem test_flags_write : (afterEvent State.reset (.write 0 [0x00#8, 0x00#8, 0x1C#8, 0x80#8])).v0.flags = 0x801C0000#32 ∧
    (afterEvent State.reset (.write 0 [0x00#8, 0x00#8, 0x1D#8, 0x00#8])).v0.flags = 0#32 ∧
    (afterEvent State.reset (.write 0 [0x00#8, 0x00#8, 0x1D#8, 0x00#8])).status = 0x00000300#32 := by decide +kernel

/-- H3: bus errors. -/
theorem test_bus_errors : (afterEvent State.reset (.read 0x54 4)).responses = [.busError 0x54] ∧
    (afterEvent State.reset (.read 0x64 4)).responses = [.busError 0x64] ∧
    (afterEvent State.reset (.read 0x02 4)).responses = [.busError 0x02] ∧
    (afterEvent State.reset (.read 0x58 2)).responses = [.busError 0x58] ∧
    (afterEvent State.reset (.write 0x5C [1#8, 0#8, 0#8, 0#8])).responses = [.busError 0x5C] := by decide +kernel

/-- H4: the word at the lowest address, least significant byte first. -/
theorem test_read_little_endian :
    (afterEvent (value 0x80030000 0xC45) (.read 0x04 4)).responses = [.data [0x45#8, 0x0C#8, 0x00#8, 0x00#8]] := by
  decide +kernel

/-- A faulted LKU, as program 4 leaves it. -/
def faulted : State :=
  { State.reset with v0 := reg 0 0x64 0 0 0, status := 0xB0000000#32, faultcmd := 0x07000000#32 }

/-- Program 4: the faulted LKU is the one that a DIVS by zero leaves, a write is discarded, a command does not run. -/
theorem test_faulted_discards : after (value 0 0x64) 0x07000000 = { faulted with responses := [.written] } ∧
    (afterEvent faulted (.write 0x50 [5#8, 0#8, 0#8, 0#8])).scl = 0#32 ∧
    (after faulted 0x03000000).v0 = reg 0 0x64 0 0 0 := by decide +kernel

/-- RESET leaves the faulted state (70_reset_and_hazards.md R190). -/
theorem test_reset_clears_fault : afterEvent faulted .reset = State.reset := by decide +kernel

/-- The host's question: the words of the opcode table decode through their bytes. -/
theorem test_decodeTableWord : decodeTableWord 32 0x0A082000 = some (.shln .v0 .four 32#8) ∧
    decodeTableWord 32 0x00000000 = none := by decide

/-! ### Witnesses: a concrete state and operands that meet all the hypotheses of each obligation -/

/-- A state whose queue is one write of `w` at offset `off`, at a `BASE` of 0x40. -/
def writing (off : Nat) (w : Word) : State :=
  { State.reset with baseWord := 16, pending := [.write (0x40 + off) (bytesOfWord w)] }

/-- A state whose queue is one event, at a `BASE` of 0x40. -/
def facing (e : HostEvent) : State := { State.reset with baseWord := 16, pending := [e] }

theorem witness_EncodedCommandDecodesBack : (Instr.shln .v3 .four 32#8).wellFormed = true ∧
    (Instr.mulp .v3 .four 9#8).wellFormed = true ∧ (Instr.divp .v0 .three 9#8).wellFormed = true ∧
    (Instr.round .v3 255#8 .toNegativeInfinity).wellFormed = true := by decide

theorem witness_AcceptedWordEncodesBack : decode 0x0A002000#32 = .ok (.shln .v0 .three 32#8) ∧
    decode 0x06080900#32 = .ok (.mulp .v0 .four 9#8) ∧ decode 0x2200FF06#32 = .ok (.round .v0 255#8 .toNegativeInfinity) := by
  decide

theorem witness_WordSelectsAtMostOneRow : Op.round.selects 0x2200FF06#32 = true ∧ Op.add.selects 0x01FC0000#32 = true := by
  decide

theorem witness_StepRunsTheDecodedCommand :
    (writing 0x54 0x03C80000).pending = [.write ((writing 0x54 0x03C80000).base + 0x54) (bytesOfWord 0x03C80000)] ∧
    (writing 0x54 0x03C80000).status.getLsbD 31 = false ∧ decode 0x03C80000#32 = .ok (.inc .v3 .four) := by decide

/-- Each item of R75 at its boundary, and a legal word beside each; any word may be the one written. -/
theorem witness_IllegalWordFaultsAndEveryOtherRuns :
    (IllegalWord 0x0D000000#32 ∧ IllegalWord 0x01020000#32 ∧ IllegalWord 0x06000A00#32 ∧ IllegalWord 0x08000A00#32 ∧
      IllegalWord 0x0A002100#32 ∧ IllegalWord 0x22000007#32) ∧
    (¬ IllegalWord 0x06000900#32 ∧ ¬ IllegalWord 0x0A002000#32 ∧ ¬ IllegalWord 0x22000006#32) ∧
    ∀ w, (writing 0x54 w).pending = [.write ((writing 0x54 w).base + 0x54) (bytesOfWord w)] ∧
      (writing 0x54 w).status.getLsbD 31 = false := by
  simp [IllegalWord, maskOfOpc, writing, State.base, State.reset]

/-- The state that faces `e` refuses it at `addr`, faulted or not. -/
def refusedWhenFaced (e : HostEvent) (addr : Nat) : Prop :=
  Refused (facing e) e addr ∧ (facing e).pending = [e] ∧
    Refused { facing e with status := 0xB0000000#32 } e addr

/-- Every way to be refused: width, alignment, both ends of the map, CMD read, and the three read-only words written. -/
theorem witness_RefusedAccessChangesNothing :
    refusedWhenFaced (.read 0x40 1) 0x40 ∧ refusedWhenFaced (.read 0x42 4) 0x42 ∧ refusedWhenFaced (.read 0x3C 4) 0x3C ∧
    refusedWhenFaced (.read 0xA4 4) 0xA4 ∧ refusedWhenFaced (.read 0x94 4) 0x94 ∧
    refusedWhenFaced (.write 0x40 [0#8]) 0x40 ∧ refusedWhenFaced (.write 0x98 (bytesOfWord 0)) 0x98 ∧
    refusedWhenFaced (.write 0x9C (bytesOfWord 0)) 0x9C ∧ refusedWhenFaced (.write 0xA0 (bytesOfWord 0)) 0xA0 := by
  simp [refusedWhenFaced, Refused, facing, State.base, State.reset, bytesOfWord]

/-- The state that faces `e` does not refuse it. -/
def acceptedWhenFaced (e : HostEvent) : Prop := (∀ addr, ¬ Refused (facing e) e addr) ∧ (facing e).pending = [e]

/-- Both ends of the map are accepted, and so are a CMD write and RESET. -/
theorem witness_AcceptedAccessIsNeverABusError :
    acceptedWhenFaced (.read 0x40 4) ∧ acceptedWhenFaced (.read 0xA0 4) ∧ acceptedWhenFaced (.write 0x94 (bytesOfWord 0)) ∧
    acceptedWhenFaced .reset := by
  simp [acceptedWhenFaced, Refused, facing, State.base, State.reset, bytesOfWord]

theorem witness_ReadReturnsTheWordLittleEndian :
    (facing (.read 0xA0 4)).readMap .faultcmd = some 0#32 ∧
    (facing (.read 0xA0 4)).pending = [.read ((facing (.read 0xA0 4)).base + mapOffset .faultcmd) 4] := by decide

/-- The three clauses: a read; a plain write of a register word, of SCL and of a legal FLAGS word; a refused FLAGS write. -/
theorem witness_PlainAccessesChangeOnlyWhatTheyAddress :
    (facing (.read 0x40 4)).pending = [.read 0x40 4] ∧
    (writing 0x4C 5).pending = [.write ((writing 0x4C 5).base + mapOffset (.ext .v3)) (bytesOfWord 5)] ∧
    (writing 0x30 0x801C0000).pending =
      [.write ((writing 0x30 0x801C0000).base + mapOffset (.flags .v3)) (bytesOfWord 0x801C0000)] ∧
    FlagsLegal 0x801C0000#32 ∧ (MapReg.flags .v3).writable = true ∧ (writing 0x30 0x801C0000).status.getLsbD 31 = false ∧
    (writing 0x30 0x001D0000).pending =
      [.write ((writing 0x30 0x001D0000).base + mapOffset (.flags .v3)) (bytesOfWord 0x001D0000)] ∧
    ¬ FlagsLegal 0x001D0000#32 := by
  unfold FlagsLegal
  decide

/-- Scale 29, reserved bit 30, reserved bit 0; and scale 28. -/
theorem witness_FlagsWriteIsChecked :
    (∀ w, (writing 0x30 w).pending = [.write ((writing 0x30 w).base + 0x10 * RegNum.index .v3) (bytesOfWord w)] ∧
      (writing 0x30 w).status.getLsbD 31 = false) ∧
    28 < ((0x001D0000#32).extractLsb' 16 8).toNat ∧ (0x40000000#32).extractLsb' 24 7 ≠ 0#7 ∧
    (0x00000001#32).extractLsb' 0 16 ≠ 0#16 ∧ FlagsLegal 0x801C0000#32 := by
  refine ⟨fun w => ⟨rfl, by simp [writing, State.reset]⟩, ?_⟩
  unfold FlagsLegal
  decide

/-- A faulted LKU facing an event, `BASE` 0. -/
def faultedFacing (e : HostEvent) : State := { faulted with pending := [e] }

/-- A faulted LKU facing a write, a read and a refused access. -/
theorem witness_FaultedUnitDiscardsWrites :
    (∀ e, (faultedFacing e).status.getLsbD 31 = true ∧ (faultedFacing e).pending = [e]) ∧
    (∀ addr, ¬ Refused (faultedFacing (.write 0x50 (bytesOfWord 5))) (.write 0x50 (bytesOfWord 5)) addr) ∧
    (.read ((faultedFacing (.read 0x58 4)).base + mapOffset .status) 4 : HostEvent) = .read 0x58 4 ∧
    (faultedFacing (.read 0x58 4)).readMap .status = some 0xB0000000#32 ∧
    Refused (faultedFacing (.read 0x54 4)) (.read 0x54 4) 0x54 := by
  refine ⟨fun e => ⟨by simp [faultedFacing, faulted], rfl⟩, ?_, by decide, by decide, ?_⟩ <;>
    simp [Refused, faultedFacing, faulted, State.base, State.reset, bytesOfWord]

theorem witness_WireImageRoundTrips :
    let s := { facing .reset with pending :=
      [.write 0x70 (bytesOfWord 0x801C0000), .write 0x74 (bytesOfWord 1), .write 0x78 (bytesOfWord 2),
       .write 0x7C (bytesOfWord 3), .read 0x70 4, .read 0x74 4, .read 0x78 4, .read 0x7C 4] }
    s.status.getLsbD 31 = false ∧ FlagsLegal 0x801C0000#32 ∧
    s.pending = [.write (s.base + 0x10 * RegNum.index .v3) (bytesOfWord 0x801C0000),
      .write (s.base + 0x10 * RegNum.index .v3 + 4) (bytesOfWord 1),
      .write (s.base + 0x10 * RegNum.index .v3 + 8) (bytesOfWord 2),
      .write (s.base + 0x10 * RegNum.index .v3 + 12) (bytesOfWord 3),
      .read (s.base + 0x10 * RegNum.index .v3) 4, .read (s.base + 0x10 * RegNum.index .v3 + 4) 4,
      .read (s.base + 0x10 * RegNum.index .v3 + 8) 4, .read (s.base + 0x10 * RegNum.index .v3 + 12) 4] ++ [] := by
  unfold FlagsLegal
  decide

/-- A faulted LKU that faces RESET: the hypotheses of both clauses. -/
theorem witness_ResetClearsEverythingAndAloneClearsFault :
    let s := { faulted with pending := [.reset] }
    s.pending = [.reset] ∧ s.status.getLsbD 31 = true ∧ ∃ t, step s = .next t ∧ t.status.getLsbD 31 = false :=
  ⟨rfl, by decide, _, rfl, by decide⟩

theorem witness_FaultedUnitIsFrozenAlongEveryRun :
    let s := { faulted with pending := [.write 0x04 (bytesOfWord 7), .read 0x04 4] }
    s.status.getLsbD 31 = true ∧ (∀ e ∈ s.pending, e ≠ .reset) ∧ ∃ t : State, Host.Core.run core 2 s = .next t :=
  ⟨by decide, by simp, _, rfl⟩

/-- Each fault condition at its boundary, and a command just inside each. -/
theorem witness_FaultsArePreciseAndOnlyThoseListed :
    faultOf (.add .v0 .v1 .three .four) fullAndOne = some .lengthMismatch ∧
    faultOf (.sub .v0 .v1 .three .four) fullAndOne = some .lengthMismatch ∧
    faultOf (.divs .v0 .three) fullAndOne = some .divideByZeroScalar ∧
    faultOf (.mulp .v0 .three 10#8) fullAndOne = some .illegalCommand ∧
    faultOf (.divp .v0 .three 10#8) fullAndOne = some .illegalCommand ∧
    faultOf (.shln .v0 .three 33#8) fullAndOne = some .illegalCommand ∧
    faultOf (.shln .v0 .three 32#8) fullAndOne = none ∧ faultOf (.mulp .v0 .three 9#8) fullAndOne = none ∧
    faultOf (.add .v0 .v1 .four .three) fullAndOne = none := by decide

/-- The invariant holds in a faulted state, and that state has a next one. -/
theorem witness_UnitInvariantIsKeptByEveryStep : UnitInv faulted ∧ ∃ t, step faulted = .next t := by
  refine ⟨⟨?_, ?_, ?_, ?_⟩, _, rfl⟩
  · intro r
    cases r <;> (unfold FlagsLegal; decide)
  · unfold StatusLegal
    decide
  · refine ⟨?_, ?_, ?_⟩
    · intro h
      exact absurd h (by decide)
    · intro h
      exact absurd h (by decide)
    · intro _
      exact ⟨by decide, .v0, .three, by decide⟩
  · intro h
    exact absurd h (by decide)

/-- NEG of a zero; a RESCALE that changes its register to zero; MOV from canonical registers. -/
theorem witness_ValueCommandsKeepZeroCanonical :
    (∃ t, exec (.neg .v3) (from23 DecReg.zero (reg 0x80030000 0 0 0 0) 0) = .next t ∧ t.val .v3 .three = 0) ∧
    (∃ t, exec (.rescale .v0 0#8) (value 0x80010000 4) = .next t ∧ t.reg .v0 ≠ (value 0x80010000 4).reg .v0 ∧
      t.val .v0 .three = 0) ∧
    (∃ t, exec (.round .v0 0#8 .toZero) (value 0x80010000 4) = .next t ∧ t.reg .v0 ≠ (value 0x80010000 4).reg .v0 ∧
      t.val .v0 .three = 0) ∧
    (∃ t, exec (.mov .v1 .v0 .four) (value 0x80010000 4) = .next t) ∧ ZerosCanonical (value 0x80010000 4) := by
  refine ⟨⟨_, rfl, by decide +kernel⟩, ⟨_, rfl, by decide +kernel, by decide +kernel⟩,
    ⟨_, rfl, by decide +kernel, by decide +kernel⟩, ⟨_, rfl⟩, ?_⟩
  intro r
  cases r <;> decide

/-- ADD over three limbs leaves the bytes of EXT (offset 0x40) and of v1. -/
theorem witness_CommandsWriteOnlyTheirWords :
    (∃ t, exec (.add .v0 .v1 .three .three) fullAndOne = .next t) ∧ faultOf (.add .v0 .v1 .three .three) fullAndOne = none ∧
    fullAndOne.locate (0x43 / 4 * 4) 4 = some (.ext .v0) ∧ MapReg.ext .v0 ∉ writesOf (.add .v0 .v1 .three .three) ∧
    fullAndOne.locate (0x14 / 4 * 4) 4 = some (.lo .v1) ∧ MapReg.lo .v1 ∉ writesOf (.add .v0 .v1 .three .three) :=
  ⟨⟨_, rfl⟩, by decide, by decide, by decide, by decide, by decide⟩

/-- Two states that differ in a word MULP does not read, SCL; one of DIVS that faults. -/
theorem witness_CommandsDependOnlyOnTheirReads :
    (∀ m ∈ readsOf (.mulp .v0 .three 9#8), fullAndOne.readMap m = ({ fullAndOne with scl := 5#32 } : State).readMap m) ∧
    (∃ t, exec (.mulp .v0 .three 9#8) fullAndOne = .next t) ∧
    (∃ t, exec (.mulp .v0 .three 9#8) { fullAndOne with scl := 5#32 } = .next t) ∧
    faultOf (.mulp .v0 .three 9#8) fullAndOne = none ∧
    MapReg.lo .v0 ∈ writesOf (.mulp .v0 .three 9#8) ∧ MapReg.lo .v0 ∈ readsOf (.divs .v0 .three) :=
  ⟨by decide, ⟨_, rfl⟩, ⟨_, rfl⟩, by decide, by decide, by decide⟩

/-- The two clauses of ADD and SUB, MULP and DIVP, DIVS, SHLN, SETSCALE at their boundary values. -/
theorem witness_command_clauses :
    ((OpLen.three = .three ∧ OpLen.four = .four) ∧ ¬ (OpLen.four = .three ∧ OpLen.four = .four)) ∧
    ((9#8).toNat ≤ 9 ∧ 9 < (10#8).toNat) ∧ ((32#8).toNat ≤ 32 ∧ 32 < (33#8).toNat) ∧
    ((28#8).toNat ≤ 28 ∧ 28 < (29#8).toNat) ∧ (fullAndOne.scl = 0#32 ∧ ({ fullAndOne with scl := 1#32 } : State).scl ≠ 0#32) := by
  decide

theorem witness_ShlnIsRepeatedShl1 : (31#8).toNat < 32 ∧
    ∃ t u, exec (.shln .v0 .four 31#8) fullAndOne = .next t ∧ exec (.shl1 .v0 .four false) t = .next u :=
  ⟨by decide, _, _, rfl, rfl⟩

theorem witness_SubUndoesAdd : RegNum.v0 ≠ .v1 ∧ ¬ (OpLen.three = .three ∧ OpLen.three = .four) ∧
    ∃ t u, exec (.add .v0 .v1 .three .three) fullAndOne = .next t ∧ exec (.sub .v0 .v1 .three .three) t = .next u :=
  ⟨by decide, by decide, _, _, rfl, rfl⟩

theorem witness_DivideMultiplyAddRestores :
    let s := { fullAndOne with scl := 10#32 }
    s.scl ≠ 0#32 ∧ ∃ t u v, exec (.divs .v0 .three) s = .next t ∧ exec (.muls .v0 .three) t = .next u ∧
      exec (.adds .v0 .three) { u with scl := t.result } = .next v :=
  ⟨by decide, stateOf (exec (.divs .v0 .three) { fullAndOne with scl := 10#32 }), _, _, rfl, rfl, rfl⟩

/-- A source register that holds SCL, SCL = 1 (as `10 ^ 0` too), SCL = `10 ^ 9`. -/
theorem witness_ScalarFormsAgree :
    ({ fullAndOne with scl := 1#32 } : State).val .v1 .three = ({ fullAndOne with scl := 1#32 } : State).scl.toNat ∧
    ({ fullAndOne with scl := 1#32 } : State).scl.toNat = 10 ^ (0#8).toNat ∧ (9#8).toNat ≤ 9 ∧
    ({ fullAndOne with scl := 1000000000#32 } : State).scl.toNat = 10 ^ (9#8).toNat := by decide +kernel

theorem witness_RescaleDownRoundsHalfUp : (27#8).toNat ≤ 28 ∧ (27#8).toNat < (value 0x001C0000 5).scale .v0 := by decide

theorem witness_RescaleUpKeepsTheValueUntilCapped :
    (28#8).toNat ≤ 28 ∧ (value 0x801B0000 5).scale .v0 < (28#8).toNat := by decide

theorem witness_RescaleToTheSameScaleOrAboveTheLimit :
    28 < (29#8).toNat ∧ (28#8).toNat ≤ 28 ∧ (value 0x001C0000 5).scale .v0 = (28#8).toNat := by decide

/-- v0 at scale 0 that cannot grow, v1 at scale 1; either order of RD and RS. -/
theorem witness_AlignBringsBothToOneScale :
    let s := from01 (reg 0 0xFFFFFFFF 0xFFFFFFFF 0xFFFFFFFF 0) (reg 0x80010000 5 0 0 0) 0
    RegNum.v0 ≠ .v1 ∧ (RegNum.v1 = .v0 ∧ RegNum.v0 = .v1 ∨ RegNum.v1 = .v1 ∧ RegNum.v0 = .v0) ∧
    s.scale .v0 < s.scale .v1 := by decide

theorem witness_AlignOfEqualScalesWritesNothing :
    (RegNum.v1 = .v1 ∨ fullAndOne.scale .v1 = fullAndOne.scale .v1) ∧
    (RegNum.v0 = .v1 ∨ fullAndOne.scale .v0 = fullAndOne.scale .v1) := by decide

/-- Places equal to the scale, and one below it. -/
theorem witness_RoundFollowsTheStrategy :
    (value 0x80010000 0x41).scale .v0 ≤ (1#8).toNat ∧ (0#8).toNat < (value 0x80010000 0x41).scale .v0 := by decide

theorem witness_RoundedValueIsTheOneTheStrategyNames : (0#8).toNat < (value 0x80010000 0x41).scale .v0 ∧
    ∃ t, exec (.round .v0 0#8 .midpointNearestEven) (value 0x80010000 0x41) = .next t := ⟨by decide, _, rfl⟩

theorem witness_RoundHalfAwayIsRescale :
    (0#8).toNat ≤ 28 ∧ (0#8).toNat < (value 0x80010000 0x41).scale .v0 := by decide

end Sys2Proof.Tests
end

section
/-! PROOFS. The state and the host's plain accesses (10_state.md R34, R37): what an update of one register or of SCL leaves
in every word of the register map, what an accepted write does to the map, and which step performs it. -/

namespace Sys2Proof.Machine

/-! ### Registers and the register map seen through updates -/

@[simp] theorem State.reset_reg (r : RegNum) : State.reset.reg r = DecReg.zero := by cases r <;> rfl

@[simp] theorem State.withScl_reg (s : State) (v : Word) (r : RegNum) : ({ s with scl := v } : State).reg r = s.reg r := by
  cases r <;> rfl

@[simp] theorem State.taken_faulted (s : State) (rest : List HostEvent) (a : List Response) :
    (s.taken rest a).faulted = s.faulted := rfl

@[simp] theorem State.taken_readMap (s : State) (rest : List HostEvent) (a : List Response) (m : MapReg) :
    (s.taken rest a).readMap m = s.readMap m := by
  cases m <;> simp [State.readMap]

/-- Taking an event off the queue touches none of the 24 words. -/
theorem State.taken_sameUnit (s : State) (rest : List HostEvent) (a : List Response) : SameUnit s (s.taken rest a) :=
  ⟨fun r => State.taken_reg s rest a r, rfl, rfl, rfl, rfl⟩

/-- Replacing register `i` leaves every word of the map but that register's own five. -/
theorem State.readMap_setReg_of_notMem (s : State) {i : RegNum} (d : DecReg) {m : MapReg}
    (h : m ∉ MapReg.flags i :: limbWords i .four) : (s.setReg i d).readMap m = s.readMap m := by
  cases m with
  | flags j | lo j | mid j | hi j | ext j =>
    have hj : j ≠ i := by
      rintro rfl
      exact h (by simp [limbWords])
    simp [State.readMap, hj]
  | scl | cmd | status | result | faultcmd => simp [State.readMap]

/-! ### An accepted write of a plain word -/

/-- From `s` to `t` the word `m` of the map takes the value `v` and every other word stays. -/
def StoresOnly (m : MapReg) (v : Word) (s t : State) : Prop :=
  t.readMap m = some v ∧ ∀ m', m' ≠ m → t.readMap m' = s.readMap m'

/-- Replacing register `i` stores one word only if it does so among the five words of that register. -/
theorem setReg_storesOnly {s : State} {i : RegNum} {d : DecReg} {m : MapReg} {v : Word}
    (hm : (s.setReg i d).readMap m = some v)
    (h : ∀ m' ∈ MapReg.flags i :: limbWords i .four, m' ≠ m → (s.setReg i d).readMap m' = s.readMap m') :
    StoresOnly m v s (s.setReg i d) := by
  refine ⟨hm, fun m' hne => ?_⟩
  by_cases hmem : m' ∈ MapReg.flags i :: limbWords i .four
  · exact h m' hmem hne
  · exact State.readMap_setReg_of_notMem s d hmem

theorem withScl_storesOnly (s : State) (v : Word) : StoresOnly .scl v s { s with scl := v } := by
  refine ⟨rfl, fun m' hne => ?_⟩
  cases m' with
  | scl => exact absurd rfl hne
  | _ => simp [State.readMap]

/-- R56 (20_memory.md): a legal FLAGS word is stored in its register. -/
theorem writeFlags_of_legal {v : Word} (h : FlagsLegal v) (i : RegNum) (s : State) :
    writeFlags i v s = s.setReg i { s.reg i with flags := v } := by
  simp [writeFlags, (legalFlags_iff v).2 h, State.setFlags]

/-- R56: any other FLAGS word is refused with INVALID_ARGUMENT. -/
theorem writeFlags_of_not_legal {v : Word} (h : ¬ FlagsLegal v) (i : RegNum) (s : State) :
    writeFlags i v s = errorInvalidArgument s := by
  simp [writeFlags, mt (legalFlags_iff v).1 h]

/-- A write of a register word or of SCL, a FLAGS word being legal, stores the word and nothing else (10_state.md R34). -/
theorem writeMap_storesOnly {m : MapReg} {v : Word} (s : State) (hw : m.writable = true) (hcmd : m ≠ .cmd)
    (hflags : ∀ i, m = .flags i → FlagsLegal v) : ∃ t, writeMap m v s = .next t ∧ StoresOnly m v s t := by
  cases m with
  | flags i =>
    refine ⟨s.setReg i { s.reg i with flags := v }, ?_, setReg_storesOnly ?_ ?_⟩
    · simp [writeMap, writeFlags_of_legal (hflags i rfl)]
    · simp [State.readMap]
    · simp [limbWords, State.readMap]
  | lo i | mid i | hi i | ext i =>
    exact ⟨_, rfl, setReg_storesOnly (by simp [State.readMap]) (by simp [limbWords, State.readMap])⟩
  | scl => exact ⟨_, rfl, withScl_storesOnly s v⟩
  | cmd => exact absurd rfl hcmd
  | status | result | faultcmd => exact absurd hw (by decide)

/-! ### The step that performs an access -/

/-- A read only leaves the queue and gets its answer (20_memory.md R61). -/
theorem step_of_read {s : State} {addr n : Nat} {rest : List HostEvent} (h : s.pending = .read addr n :: rest) :
    step s = .next (s.taken rest (respond (.read addr n) s)) := step_of_pending h

/-- A word that is not read-only is the target of a write at its offset (20_memory.md R51, R55). -/
theorem writeTarget_mapOffset (s : State) {m : MapReg} (hw : m.writable = true) :
    s.writeTarget (s.base + mapOffset m) 4 = some m := by
  simp [State.writeTarget, locate_mapOffset, hw]

/-- A write to a writable word of an LKU that is not faulted is accepted and performed (20_memory.md R64). -/
theorem step_of_write {s : State} {m : MapReg} {v : Word} {rest : List HostEvent}
    (h : s.pending = .write (s.base + mapOffset m) (bytesOfWord v) :: rest) (hfault : s.status.getLsbD 31 = false)
    (hw : m.writable = true) : step s = writeMap m v (s.taken rest [.written]) := by
  have htarget (a : List Response) : (s.taken rest a).writeTarget (s.base + mapOffset m) 4 = some m :=
    writeTarget_mapOffset (s.taken rest a) hw
  have hrun : s.faulted = false := hfault
  rw [step_of_pending h]
  simp [perform, respond, writeTarget_mapOffset s hw, htarget, hrun]

/-! ### The obligations -/

/-- Settles O16. -/
theorem resetStateIsAllZero : Obligations.ResetStateIsAllZero := by
  unfold Obligations.ResetStateIsAllZero
  exact ⟨State.reset_reg, rfl, rfl, rfl, rfl⟩

/-- Settles O12: a read only takes its event off the queue; a plain write is `writeMap_storesOnly`; a refused FLAGS write is
the error outcome. -/
theorem plainAccessesChangeOnlyWhatTheyAddress : Obligations.PlainAccessesChangeOnlyWhatTheyAddress := by
  unfold Obligations.PlainAccessesChangeOnlyWhatTheyAddress
  refine ⟨fun s addr n rest hread => ?_, fun s m v rest hwrite hfault hw hcmd hflags => ?_,
    fun s i v rest hwrite hfault hillegal => ?_⟩
  · exact ⟨_, step_of_read hread, State.taken_sameUnit s rest _⟩
  · obtain ⟨t, ht, hstored, hothers⟩ := writeMap_storesOnly (s.taken rest [.written]) hw hcmd hflags
    refine ⟨t, (step_of_write hwrite hfault hw).trans ht, hstored, fun m' hne => ?_⟩
    rw [hothers m' hne, State.taken_readMap]
  · have hstep : step s = .next (errorInvalidArgument (s.taken rest [.written])) := by
      rw [step_of_write hwrite hfault rfl, writeMap, writeFlags_of_not_legal hillegal]
    exact ⟨_, hstep, by simp⟩

end Sys2Proof.Machine
end

section
/-! PROOFS. The representation commands MOV, SETSCALE and NEG (40_representation.md R91 to R93): what each leaves in RD, how it
completes, and that nothing else changes. -/

namespace Sys2Proof.Machine

/-! ### MOV (R91) -/

/-- What `setval` writes depends on the integer and the length alone, not on the register it is stored in. -/
theorem DecReg.setVal_eq_of_other (d e : DecReg) (n : OpLen) (v : Nat) :
    d.setVal n v =
      { e.setVal n v with flags := d.flags, ext := if n = .four then (e.setVal n v).ext else d.ext } := by
  cases n <;> rfl

/-- Storing the integer of `e`'s limbs in `d` is copying those limbs; EXT is among them only for four. -/
theorem DecReg.setVal_val_other (d e : DecReg) (n : OpLen) :
    d.setVal n (e.val n) = { e with flags := d.flags, ext := if n = .four then e.ext else d.ext } := by
  rw [DecReg.setVal_eq_of_other d e, DecReg.setVal_val]

/-- The register MOV leaves in RD, RD = RS included. -/
theorem State.setFlags_setVal_reg_same (s : State) (rd rs : RegNum) (n : OpLen) :
    ((s.setFlags rd (s.reg rs).flags).setVal rd n (s.val rs n)).reg rd =
      { s.reg rs with ext := if n = .four then (s.reg rs).ext else (s.reg rd).ext } := by
  rw [State.setVal_reg_same, State.setFlags_reg_same, State.val, DecReg.setVal_val_other]

/-- Settles O41: RD is the register of `State.setFlags_setVal_reg_same`, and the two register writes and the completion each
leave all else. -/
theorem movCopiesFlagsAndLimbs : Obligations.MovCopiesFlagsAndLimbs := by
  unfold Obligations.MovCopiesFlagsAndLimbs
  intro rd rs dl s
  have hothers : OthersSame rd s ((s.setFlags rd (s.reg rs).flags).setVal rd dl (s.val rs dl)) :=
    (setReg_othersSame s rd _).trans (State.setVal_othersSame _ rd dl _)
  refine ⟨_, rfl, ?_⟩
  rw [complete_reg, State.setFlags_setVal_reg_same]
  exact ⟨rfl, rfl, rfl, rfl, rfl, complete_completedWith rd dl {} _ (Nat.two_pow_pos 32),
    hothers.trans (complete_othersSame rd rd dl 0 {} _)⟩

/-! ### A command that writes one flag word: SETSCALE (R92) and NEG (R93) -/

/-- `setfs` and then a completion over three limbs: the flag word is the packed one, the limbs stay, RESULT is `v`, every
flag but Z is 0. -/
theorem complete_setFs_spec (s : State) (rd : RegNum) (sg : Bool) {sc v : Nat} (hsc : sc < 256) (hv : v < 2 ^ 32) :
    let t := complete rd .three v {} (s.setFs rd sg sc)
    FlagWord (t.reg rd).flags sg sc ∧ SameLimbs (s.reg rd) (t.reg rd) ∧
      CompletedWith t rd .three v false 0 false false ∧ OthersSame rd s t := by
  intro t
  have hreg : t.reg rd = { s.reg rd with flags := packFlags sg sc } := by
    rw [complete_reg, State.setFs_reg_same]
  rw [hreg]
  exact ⟨packFlags_flagWord sg hsc, ⟨rfl, rfl, rfl, rfl⟩, complete_completedWith rd .three {} _ hv,
    (State.setFs_othersSame s rd sg sc).trans (complete_othersSame rd rd .three v {} _)⟩

theorem execSetscale_of_gt {imm : BitVec 8} (h : 28 < imm.toNat) (rd : RegNum) (s : State) :
    execSetscale rd imm s = .next (errorInvalidArgument s) := if_pos h

theorem execSetscale_of_le {imm : BitVec 8} (h : imm.toNat ≤ 28) (rd : RegNum) (s : State) :
    execSetscale rd imm s = .next (complete rd .three imm.toNat {} (s.setFs rd (s.sign rd) imm.toNat)) :=
  if_neg (Nat.not_lt_of_le h)

/-- Settles O42. -/
theorem setscaleWritesTheScaleAlone : Obligations.SetscaleWritesTheScaleAlone := by
  unfold Obligations.SetscaleWritesTheScaleAlone
  intro rd imm s
  refine ⟨fun habove => ?_, fun hlegal => ?_⟩
  · exact ⟨_, execSetscale_of_gt habove rd s, errorInvalidArgument_errorOutcome s⟩
  · exact ⟨_, execSetscale_of_le hlegal rd s, complete_setFs_spec s rd (s.sign rd) (by omega) (by omega)⟩

/-- The sign NEG gives a register (R93): a zero mantissa is stored non-negative. -/
def State.negatedSign (s : State) (rd : RegNum) : Bool := if s.val rd .three = 0 then false else !s.sign rd

/-- NEG in terms of the new sign. -/
theorem execNeg_eq (rd : RegNum) (s : State) :
    execNeg rd s =
      .next (complete rd .three (if s.negatedSign rd then 1 else 0) {} (s.setFs rd (s.negatedSign rd) (s.scale rd))) := by
  have hsign : (if s.isAllZero rd .three then false else !s.sign rd) = s.negatedSign rd := by
    simp [State.isAllZero, State.negatedSign]
  rw [execNeg, hsign, Bool.toNat, Bool.cond_eq_ite]

/-- Settles O43: NEG is `setfs` of the new sign and the old scale. -/
theorem negFlipsTheSignOfNonZero : Obligations.NegFlipsTheSignOfNonZero := by
  unfold Obligations.NegFlipsTheSignOfNonZero
  intro rd s
  have hresult : (if s.negatedSign rd then 1 else 0) < 2 ^ 32 := by split <;> decide
  exact ⟨_, s.negatedSign rd, execNeg_eq rd s, rfl,
    complete_setFs_spec s rd (s.negatedSign rd) (State.scale_lt s rd) hresult⟩

end Sys2Proof.Machine
end

section
/-! PROOFS. ADDS and INC (41_limb_add_sub.md R102, R103): both store the sum of RD's limbs and an addend that fits the limb
array, so one lemma about such a sum gives the carry, the flags and the frame of both. -/

namespace Sys2Proof.Machine

/-! ### Integers that fit a limb array -/

theorem State.val_lt_radix (s : State) (rd : RegNum) (n : OpLen) : s.val rd n < radix n := by
  rw [radix_eq_two_pow]
  exact State.val_lt s rd n

/-- The radix of every operating length is above that of one limb. -/
theorem two_pow_limb_lt_radix (n : OpLen) : 2 ^ 32 < radix n := by cases n <;> decide

/-- A word, zero-extended, fits a limb array of every operating length. -/
theorem toNat_lt_radix (w : Word) (n : OpLen) : w.toNat < radix n := w.isLt.trans (two_pow_limb_lt_radix n)

/-! ### A sum stored in RD -/

/-- The sum of two integers that fit a limb array carries at most 1. -/
theorem carry_le_one {a b r : Nat} (ha : a < r) (hb : b < r) : (a + b) / r ≤ 1 := by
  have hlt : (a + b) / r < 2 := Nat.div_lt_of_lt_mul (by omega)
  omega

/-- The carry of such a sum is 1 exactly when the sum does not fit. -/
theorem carry_eq_one_iff {a b r : Nat} (ha : a < r) (hb : b < r) : (a + b) / r = 1 ↔ r ≤ a + b := by
  have hle := carry_le_one ha hb
  have hpos : 0 < (a + b) / r ↔ r ≤ a + b := Nat.div_pos_iff.trans (by omega)
  omega

/-- C as R100 computes it is C as a carry of at most 1. -/
theorem carry_bne_zero {k : Nat} (hk : k ≤ 1) : (k != 0) = decide (k = 1) := by
  rw [Bool.eq_iff_iff, bne_iff_ne, decide_eq_true_iff]
  omega

/-- RD plus an addend that fits the limb array: the new integer and the carry make up the sum, the carry is in RESULT and C,
and nothing but the limbs, RESULT and STATUS[10:0] changes (R100, R101). -/
theorem storeWrapped_sum_spec (rd : RegNum) (n : OpLen) {b : Nat} (s : State) (hb : b < radix n) :
    let t := storeWrapped rd n (s.val rd n + b) s
    let k := (s.val rd n + b) / radix n
    k ≤ 1 ∧ t.val rd n + radix n * k = s.val rd n + b ∧
      CompletedWith t rd n k (decide (k = 1)) 0 false false ∧ LimbsOnly rd n s t := by
  intro t k
  have hk : k ≤ 1 := carry_le_one (State.val_lt_radix s rd n) hb
  obtain ⟨hval, hdone, hframe⟩ : t.val rd n = (s.val rd n + b) % radix n ∧
      CompletedWith t rd n k (k != 0) 0 false false ∧ LimbsOnly rd n s t := by
    have hfits : k < 2 ^ 32 := hk.trans_lt (by decide)
    unfold k at hfits ⊢
    rw [radix_eq_two_pow] at hfits ⊢
    exact storeWrapped_spec rd n _ s hfits
  rw [carry_bne_zero hk] at hdone
  refine ⟨hk, ?_, hdone, hframe⟩
  rw [hval]
  exact Nat.mod_add_div _ _

/-! ### The obligations -/

/-- Settles O26: SCL is an addend that fits every limb array. -/
theorem addsAddsTheScalar : Obligations.AddsAddsTheScalar := by
  unfold Obligations.AddsAddsTheScalar
  intro rd dl s
  exact ⟨_, _, rfl, storeWrapped_sum_spec rd dl s (toNat_lt_radix s.scl dl)⟩

/-- Settles O27: the sum with 1 leaves the limb array only from its largest integer, the limbs all ones. -/
theorem incAddsOne : Obligations.IncAddsOne := by
  unfold Obligations.IncAddsOne
  intro rd dl s
  have hone : 1 < radix dl := (by decide : 1 < 2 ^ 32).trans (two_pow_limb_lt_radix dl)
  have hlt := State.val_lt_radix s rd dl
  obtain ⟨hcarry, hsum, hdone, hframe⟩ := storeWrapped_sum_spec rd dl s hone
  have hones : (s.val rd dl + 1) / radix dl = 1 ↔ s.val rd dl = radix dl - 1 :=
    (carry_eq_one_iff hlt hone).trans (by omega)
  exact ⟨_, _, rfl, hcarry, hsum, hones, hdone, hframe⟩

end Sys2Proof.Machine
end

section
/-! PROOFS. MULS (42_limb_mul_div.md R111): a kernel result read as an integer and its overflow, and the carry that a product
by a 32-bit scalar leaves. -/

namespace Sys2Proof.Machine

/-! ### A kernel result over the radix -/

/-- A kernel result whose overflow fits RESULT: the new integer and the overflow make it up, the overflow is in RESULT and C
is its non-zero test (41_limb_add_sub.md R100). -/
theorem storeWrapped_radix_spec (rd : RegNum) (n : OpLen) {v : Nat} (s : State) (h : v / radix n < 2 ^ 32) :
    let t := storeWrapped rd n v s
    let k := v / radix n
    t.val rd n + radix n * k = v ∧ CompletedWith t rd n k (decide (k ≠ 0)) 0 false false ∧ LimbsOnly rd n s t := by
  intro t k
  obtain ⟨hval, hdone, hframe⟩ := storeWrapped_spec rd n v s (radix_eq_two_pow n ▸ h)
  rw [← radix_eq_two_pow] at hval hdone
  rw [bne, beq_eq_decide, ← decide_not] at hdone
  refine ⟨?_, hdone, hframe⟩
  rw [hval]
  exact Nat.mod_add_div _ _

/-! ### A product stored in RD -/

/-- The carry of a product by `m` stays below `m`; by 0 there is none. -/
theorem product_carry_le_pred {a r : Nat} (ha : a < r) (m : Nat) : a * m / r ≤ m - 1 := by
  obtain rfl | hm := Nat.eq_zero_or_pos m
  · simp
  · have hlt : a * m / r < m := Nat.div_lt_of_lt_mul (Nat.mul_lt_mul_of_pos_right ha hm)
    omega

/-- RD times a scalar that fits a limb: the new integer and the carry make up the product, the carry is in RESULT, and
nothing but the limbs, RESULT and STATUS[10:0] changes (R111). -/
theorem storeWrapped_product_spec (rd : RegNum) (n : OpLen) {m : Nat} (s : State) (hm : m < 2 ^ 32) :
    let t := storeWrapped rd n (s.val rd n * m) s
    let k := s.val rd n * m / radix n
    k ≤ m - 1 ∧ t.val rd n + radix n * k = s.val rd n * m ∧
      CompletedWith t rd n k (decide (k ≠ 0)) 0 false false ∧ LimbsOnly rd n s t := by
  intro t k
  have hk : k ≤ m - 1 := product_carry_le_pred (State.val_lt_radix s rd n) m
  exact ⟨hk, storeWrapped_radix_spec rd n s (by omega)⟩

/-! ### The obligation -/

/-- Settles O29: SCL is at most `2 ^ 32 - 1`, and the carry is below it. -/
theorem mulsMultipliesByTheScalar : Obligations.MulsMultipliesByTheScalar := by
  unfold Obligations.MulsMultipliesByTheScalar
  intro rd dl s
  have hscl : s.scl.toNat < 2 ^ 32 := s.scl.isLt
  obtain ⟨hcarry, hproduct⟩ := storeWrapped_product_spec rd dl s hscl
  exact ⟨_, _, rfl, by omega, hproduct⟩

end Sys2Proof.Machine
end

section
/-! PROOFS. SHL1, CMP and TSTZ (43_limb_shift_compare.md R120, R122, R123): the bit a doubling shifts out, the comparison of
two limb arrays from the most significant limb down, and when every limb is zero. -/

namespace Sys2Proof.Machine

/-! ### SHL1 (R120) -/

/-- A double with a bit entering at the bottom carries at most 1. -/
theorem double_carry_le_one {a c r : Nat} (ha : a < r) (hc : c ≤ 1) : (a * 2 + c) / r ≤ 1 := by
  have hlt : (a * 2 + c) / r < 2 := Nat.div_lt_of_lt_mul (by omega)
  omega

/-- A kernel result whose overflow is one bit: the new integer and the bit make it up, and RESULT and C are the bit. -/
theorem storeWrapped_bit_spec (rd : RegNum) (n : OpLen) {v : Nat} (s : State) (h : v / radix n ≤ 1) :
    let t := storeWrapped rd n v s
    let k := v / radix n
    t.val rd n + radix n * k = v ∧ CompletedWith t rd n k (decide (k = 1)) 0 false false ∧ LimbsOnly rd n s t := by
  intro t k
  rw [← carry_bne_zero h, bne, beq_eq_decide, ← decide_not]
  exact storeWrapped_radix_spec rd n s (h.trans_lt (by decide))

/-- Settles O33: the doubled integer is a kernel result whose overflow is the bit shifted out. -/
theorem shl1ShiftsInTheCarry : Obligations.Shl1ShiftsInTheCarry := by
  unfold Obligations.Shl1ShiftsInTheCarry
  intro rd dl ci s
  have hcarry : (s.val rd dl * 2 + ci.toNat) / radix dl ≤ 1 :=
    double_carry_le_one (State.val_lt_radix s rd dl) (Bool.toNat_le ci)
  have hdouble : s.val rd dl * 2 + ci.toNat = 2 * s.val rd dl + (if ci then 1 else 0) := by
    rw [Nat.mul_comm]
    cases ci <;> rfl
  obtain ⟨hsum, hdone, hframe⟩ := storeWrapped_bit_spec rd dl s hcarry
  exact ⟨_, _, rfl, hcarry, hsum.trans hdouble, hdone, hframe⟩

/-! ### CMP (R122) -/

/-- Comparing two integers of a high and a low part, the low part below the high one's weight: the high parts decide unless
they are equal. -/
theorem compareNat_add_mul {l l' r : Nat} (hl : l < r) (hl' : l' < r) (h h' : Nat) :
    compareNat (l + r * h) (l' + r * h') = if h ≠ h' then compareNat h h' else compareNat l l' := by
  have hstep {a b : Nat} (hab : a < b) : r * a + r ≤ r * b := by
    rw [← Nat.mul_succ]
    exact Nat.mul_le_mul_left r hab
  obtain hlt | rfl | hgt := Nat.lt_trichotomy h h'
  · have := hstep hlt
    rw [if_pos hlt.ne, compareNat_of_lt hlt, compareNat_of_lt (by omega)]
  · simp [compareNat]
  · have := hstep hgt
    rw [if_pos hgt.ne', compareNat_of_gt hgt, compareNat_of_gt (by omega)]

/-- Three limbs are HI above MID and LO taken as one 64-bit number. -/
theorem DecReg.val_three_eq (d : DecReg) : d.val .three = (d.mid ++ d.lo).toNat + 2 ^ 64 * d.hi.toNat := by
  have hlow : (d.mid ++ d.lo).toNat = d.lo.toNat + 2 ^ 32 * d.mid.toNat := by
    rw [BitVec.toNat_append, ← Nat.shiftLeft_add_eq_or_of_lt d.lo.isLt, Nat.shiftLeft_eq]
    omega
  rw [hlow]
  rfl

/-- The comparison of two mantissas is R122's: HI first, then MID and LO as one number. -/
theorem compareNat_val_three (d e : DecReg) :
    compareNat (d.val .three) (e.val .three) =
      if d.hi ≠ e.hi then compareNat d.hi.toNat e.hi.toNat
      else compareNat (d.mid ++ d.lo).toNat (e.mid ++ e.lo).toNat := by
  rw [DecReg.val_three_eq, DecReg.val_three_eq, compareNat_add_mul (BitVec.isLt _) (BitVec.isLt _)]
  simp only [ne_eq, BitVec.toNat_inj]

/-- The code of a comparison of two words of any width. -/
theorem compareNat_toNat_code {w : Nat} (x y : BitVec w) :
    (compareNat x.toNat y.toNat).code = if x = y then 0 else if x < y then 1 else 2 := by
  rw [compareNat, apply_ite CmpResult.code, apply_ite CmpResult.code]
  simp only [CmpResult.code, BitVec.toNat_inj, BitVec.lt_def]

theorem CmpResult.code_lt (o : CmpResult) : o.code < 2 ^ 32 := by cases o <;> decide

/-- Settles O36: ORD and RESULT are the code of the comparison that `compareNat_val_three` takes apart limb by limb. -/
theorem cmpComparesMostSignificantLimbFirst : Obligations.CmpComparesMostSignificantLimbFirst := by
  unfold Obligations.CmpComparesMostSignificantLimbFirst
  intro rd rs s
  refine ⟨_, _, rfl, complete_noRegisterWritten rd .three _ _ s,
    complete_completedWith rd .three _ s (CmpResult.code_lt _), ?_⟩
  rw [State.val, State.val, compareNat_val_three, apply_ite CmpResult.code, compareNat_toNat_code, compareNat_toNat_code]
  by_cases hhi : (s.reg rd).hi = (s.reg rs).hi <;> simp [hhi]

/-! ### TSTZ (R123) -/

/-- A limb array is zero exactly when each of its limbs is; EXT is one of them only for four. -/
theorem DecReg.val_eq_zero_iff (d : DecReg) (n : OpLen) :
    d.val n = 0 ↔ d.lo = 0#32 ∧ d.mid = 0#32 ∧ d.hi = 0#32 ∧ (n = .four → d.ext = 0#32) := by
  cases n <;> simp [DecReg.val, ← BitVec.toNat_inj, and_assoc]

/-- Settles O37: RESULT is the zero test of RD's integer, which is the zero test of its limbs. -/
theorem tstzTestsTheLimbs : Obligations.TstzTestsTheLimbs := by
  unfold Obligations.TstzTestsTheLimbs
  intro rd dl s
  have hle : (s.isAllZero rd dl).toNat ≤ 1 := Bool.toNat_le _
  refine ⟨_, _, rfl, complete_noRegisterWritten rd dl _ {} s,
    complete_completedWith rd dl {} s (hle.trans_lt (by decide)), hle, ?_⟩
  rw [Bool.toNat_eq_one, State.isAllZero, beq_iff_eq, State.val, DecReg.val_eq_zero_iff]

end Sys2Proof.Machine
end

section
/-! PROOFS. ROUND (45_round.md R140 to R142): when the engine rounds up, the mantissa it leaves, and how a command that writes
a mantissa and a flag word completes. -/

namespace Sys2Proof.Machine

/-! ### The decision (R140, R141) -/

/-- Two halves make one unit in the last kept place. -/
theorem two_mul_halfUnit {g : Nat} (h : 0 < g) : 2 * halfUnit g = 10 ^ g := by
  obtain ⟨k, rfl⟩ := Nat.exists_eq_add_of_lt h
  rw [halfUnit, Nat.zero_add, Nat.add_sub_cancel, ← Nat.mul_assoc, Nat.pow_succ']

/-- The engine's test against half a unit is the rule's test of twice the remainder against the whole unit. -/
theorem roundsUp_iff (strat : Strategy) (sg : Bool) (t r half : Nat) :
    roundsUp strat sg t r half = true ↔ RoundUpRule strat sg t r (2 * half) := by
  cases strat with
  | midpointNearestEven =>
    simp only [roundsUp, RoundUpRule, Bool.or_eq_true, Bool.and_eq_true, decide_eq_true_iff, beq_iff_eq]
    omega
  | midpointAwayFromZero | midpointTowardZero =>
    simp only [roundsUp, RoundUpRule, decide_eq_true_iff]
    omega
  | toZero | awayFromZero | toPositiveInfinity | toNegativeInfinity => simp [roundsUp, RoundUpRule]

/-! ### What ROUND computes below the scale (R142) -/

/-- Whether ROUND to `p` places adds one to the truncated mantissa of `rd`. -/
def State.roundUpBit (s : State) (rd : RegNum) (p : Nat) (strat : Strategy) : Bool :=
  let u := 10 ^ (s.scale rd - p)
  roundsUp strat (s.sign rd) (s.val rd .three / u) (s.val rd .three % u) (halfUnit (s.scale rd - p))

/-- The mantissa that ROUND to `p` places leaves in `rd`. -/
def State.roundedMantissa (s : State) (rd : RegNum) (p : Nat) (strat : Strategy) : Nat :=
  s.val rd .three / 10 ^ (s.scale rd - p) + if s.roundUpBit rd p strat then 1 else 0

theorem State.roundUpBit_iff {s : State} {rd : RegNum} {p : Nat} (h : p < s.scale rd) (strat : Strategy) :
    s.roundUpBit rd p strat = true ↔
      RoundUpRule strat (s.sign rd) (s.val rd .three / 10 ^ (s.scale rd - p)) (s.val rd .three % 10 ^ (s.scale rd - p))
        (10 ^ (s.scale rd - p)) := by
  rw [State.roundUpBit, roundsUp_iff, two_mul_halfUnit (Nat.sub_pos_of_lt h)]

/-- The increment cannot carry out of the 96 bits: dropping a place leaves at most a tenth of the mantissa (R142). -/
theorem State.roundedMantissa_lt {s : State} {rd : RegNum} {p : Nat} (h : p < s.scale rd) (strat : Strategy) :
    s.roundedMantissa rd p strat < 2 ^ 96 := by
  have hm : s.val rd .three < 2 ^ 96 := State.val_lt s rd .three
  have hu : 10 ≤ 10 ^ (s.scale rd - p) := Nat.le_self_pow (Nat.sub_ne_zero_of_lt h) 10
  have ht : s.val rd .three / 10 ^ (s.scale rd - p) ≤ s.val rd .three / 10 := Nat.div_le_div_left hu (by decide)
  unfold State.roundedMantissa
  split <;> omega

theorem execRound_of_le {rd : RegNum} {imm : BitVec 8} {s : State} (h : s.scale rd ≤ imm.toNat) (strat : Strategy) :
    execRound rd imm strat s = .next (complete rd .three (s.scale rd) {} s) := if_pos h

theorem execRound_of_lt {rd : RegNum} {imm : BitVec 8} {s : State} (h : imm.toNat < s.scale rd) (strat : Strategy) :
    execRound rd imm strat s =
      .next (complete rd .three imm.toNat { rnd := s.roundUpBit rd imm.toNat strat }
        ((s.setVal rd .three (s.roundedMantissa rd imm.toNat strat)).setFs rd
          (decide (s.roundedMantissa rd imm.toNat strat ≠ 0) && s.sign rd) imm.toNat)) := by
  rw [decide_not, ← beq_eq_decide, ← bne, State.roundedMantissa, ← Bool.cond_eq_ite]
  exact if_neg (Nat.not_le_of_lt h)

/-! ### A command that writes a mantissa and a flag word -/

/-- `setval` over three limbs, `setfs`, and then a completion: the mantissa and the flag word are the ones given, EXT stays,
and nothing but the register, RESULT and STATUS[10:0] changes. -/
theorem complete_setVal_setFs_spec (s : State) (rd : RegNum) (sg : Bool) (f : CompletionFlags) {v sc res : Nat}
    (hv : v < 2 ^ 96) (hsc : sc < 256) (hres : res < 2 ^ 32) :
    let t := complete rd .three res f ((s.setVal rd .three v).setFs rd sg sc)
    t.val rd .three = v ∧ FlagWord (t.reg rd).flags sg sc ∧ (t.reg rd).ext = (s.reg rd).ext ∧
      CompletedWith t rd .three res f.c f.ord.code f.rnd f.cap ∧ OthersSame rd s t := by
  intro t
  have hval : t.val rd .three = v := by
    rw [complete_val, State.setFs_val, State.val_setVal s rd .three hv]
  have hreg : t.reg rd = { (s.reg rd).setVal .three v with flags := packFlags sg sc } := by
    rw [complete_reg, State.setFs_reg_same, State.setVal_reg_same]
  rw [hreg]
  exact ⟨hval, packFlags_flagWord sg hsc, rfl, complete_completedWith rd .three f _ hres,
    (State.setVal_setFs_othersSame s rd v sg sc).trans (complete_othersSame rd rd .three res f _)⟩

/-! ### The obligation -/

/-- Settles O49: below the scale, the register is that of `execRound_of_lt`, and the rule decides the increment by
`State.roundUpBit_iff`. -/
theorem roundFollowsTheStrategy : Obligations.RoundFollowsTheStrategy := by
  unfold Obligations.RoundFollowsTheStrategy
  intro rd imm strat s
  refine ⟨fun hkept => ?_, fun hdropped => ?_⟩
  · have hres : s.scale rd < 2 ^ 32 := (State.scale_lt s rd).trans (by decide)
    exact ⟨_, execRound_of_le hkept strat, complete_noRegisterWritten rd .three _ {} s,
      complete_completedWith rd .three {} s hres⟩
  · obtain ⟨hval, hflags, hext, hdone, hframe⟩ :=
      complete_setVal_setFs_spec s rd (decide (s.roundedMantissa rd imm.toNat strat ≠ 0) && s.sign rd)
        { rnd := s.roundUpBit rd imm.toNat strat } (State.roundedMantissa_lt hdropped strat) imm.isLt
        (imm.isLt.trans (by decide : 2 ^ 8 < 2 ^ 32))
    refine ⟨_, _, _, execRound_of_lt hdropped strat, rfl, State.roundUpBit_iff hdropped strat, hval, ?_, hext, hdone,
      hframe⟩
    rw [hval]
    exact hflags

end Sys2Proof.Machine
end

section
/-! PROOFS. Which commands fault (60_exceptions.md R171, R172). A command of `faultOf` ends in fault entry and nothing
else; any other command writes registers at most and ends by `complete` or the error outcome, and none of these touches
STATUS[31:28] or FAULTCMD. -/

namespace Sys2Proof.Machine

/-! ### The fault record: STATUS[31:28] and FAULTCMD -/

/-- STATUS[31:28] and FAULTCMD are the same (10_state.md R29, R31). -/
def FaultRecordKept (s t : State) : Prop :=
  t.faultcmd = s.faultcmd ∧ t.status.extractLsb' 28 4 = s.status.extractLsb' 28 4

theorem FaultRecordKept.refl (s : State) : FaultRecordKept s s := ⟨rfl, rfl⟩

theorem FaultRecordKept.trans {s t u : State} (h : FaultRecordKept s t) (k : FaultRecordKept t u) :
    FaultRecordKept s u :=
  ⟨k.1.trans h.1, k.2.trans h.2⟩

/-- A normal completion after operations that keep the fault record keeps it (10_state.md R33). -/
theorem FaultRecordKept.trans_complete {s t : State} (h : FaultRecordKept s t) (rd : RegNum) (n : OpLen) (v : Nat)
    (f : CompletionFlags) : FaultRecordKept s (complete rd n v f t) :=
  h.trans ⟨rfl, withLow_extract_above _ _ (by decide)⟩

theorem errorInvalidArgument_faultRecordKept (s : State) : FaultRecordKept s (errorInvalidArgument s) :=
  ⟨rfl, withLow_extract_above _ _ (by decide)⟩

theorem setReg_faultRecordKept (s : State) (i : RegNum) (d : DecReg) : FaultRecordKept s (s.setReg i d) :=
  ⟨by simp, by simp⟩

/-- STATUS[31:28] is the top of STATUS[31:11]. -/
theorem OthersSame.faultRecordKept {rd : RegNum} {s t : State} (h : OthersSame rd s t) : FaultRecordKept s t := by
  obtain ⟨-, -, hfaultcmd, hstatus, -⟩ := h
  have htop (w : Word) : w.extractLsb' 28 4 = (w.extractLsb' 11 21).extractLsb' 17 4 := by
    ext i hi
    simp [BitVec.getElem_extractLsb', ← Nat.add_assoc, show 17 + i < 21 by omega]
  exact ⟨hfaultcmd, by rw [htop, htop, hstatus]⟩

/-! ### The limb kernel and the rescaler keep the fault record -/

theorem storeWrapped_faultRecordKept (rd : RegNum) (n : OpLen) (v : Nat) (s : State) :
    FaultRecordKept s (storeWrapped rd n v s) :=
  (setReg_faultRecordKept s rd _).trans_complete rd n _ _

theorem storeQuotient_faultRecordKept (rd : RegNum) (n : OpLen) (k : Nat) (s : State) :
    FaultRecordKept s (storeQuotient rd n k s) :=
  (setReg_faultRecordKept s rd _).trans_complete rd n _ _

/-- `rescale_reg` writes no more than its own register, whichever way the scale moves (44_rescale_align.md R130). -/
theorem rescaleReg_othersSame (i : RegNum) (ts : Nat) (s : State) : OthersSame i s (rescaleReg i ts s).state := by
  obtain hdown | rfl | hup := Nat.lt_trichotomy ts (s.scale i)
  · obtain ⟨t, g, -, heq, -, -, -, hothers⟩ := rescaleReg_down i ts s hdown
    rwa [heq]
  · rw [rescaleReg_same]
    exact ⟨fun _ _ => rfl, rfl, rfl, rfl, rfl, rfl, rfl⟩
  · obtain ⟨t, j, heq, -, -, -, -, -, hothers⟩ := rescaleReg_up i ts s hup
    rwa [heq]

theorem rescaleReg_faultRecordKept (i : RegNum) (ts : Nat) (s : State) : FaultRecordKept s (rescaleReg i ts s).state :=
  (rescaleReg_othersSame i ts s).faultRecordKept

/-- ALIGN's one or two rescales (R132). -/
theorem alignRegs_faultRecordKept (low high : RegNum) (s : State) : FaultRecordKept s (alignRegs low high s).state := by
  have hraise := rescaleReg_faultRecordKept low (s.scale high) s
  simp only [alignRegs]
  split
  · exact hraise.trans (rescaleReg_faultRecordKept high _ _)
  · exact hraise

/-- ALIGN has no fault condition. -/
theorem execAlign_faultRecordKept (rd rs : RegNum) (s : State) :
    ∃ t, execAlign rd rs s = .next t ∧ FaultRecordKept s t := by
  refine ⟨_, rfl, FaultRecordKept.trans_complete ?_ rd .three _ _⟩
  split_ifs
  · exact .refl s
  · exact alignRegs_faultRecordKept rd rs s
  · exact alignRegs_faultRecordKept rs rd s

/-! ### How a command ends -/

/-- The length test of ADD and SUB is R171's pair. -/
theorem lengthsMismatch_iff (dl sl : OpLen) : lengthsMismatch dl sl = true ↔ dl = .three ∧ sl = .four := by
  simp [lengthsMismatch]

/-- A command that meets its fault condition does fault entry for its own word, and nothing before it. -/
theorem exec_of_faultOf_eq_some {i : Instr} {s : State} {c : FaultCause} (h : faultOf i s = some c) :
    exec i s = .next (raiseFault c (encode i) s) := by
  cases i with
  | add rd rs dl sl | sub rd rs dl sl =>
    obtain ⟨hpair, ⟨⟩⟩ := Option.ite_none_right_eq_some.mp h
    exact if_pos ((lengthsMismatch_iff dl sl).mpr hpair)
  | divs rd dl =>
    obtain ⟨hscl, ⟨⟩⟩ := Option.ite_none_right_eq_some.mp h
    exact if_pos (congrArg BitVec.toNat hscl)
  | mulp rd dl imm | divp rd dl imm | shln rd dl imm =>
    obtain ⟨habove, ⟨⟩⟩ := Option.ite_none_right_eq_some.mp h
    exact if_neg (Nat.not_le_of_lt habove)
  | adds | inc | muls | shl1 | cmp | tstz | mov | setscale | neg | rescale | align | round => cases h

/-- A command that meets no fault condition runs, and keeps the fault record. -/
theorem exec_of_faultOf_eq_none {i : Instr} {s : State} (h : faultOf i s = none) :
    ∃ t, exec i s = .next t ∧ FaultRecordKept s t := by
  cases i with
  | add rd rs dl sl =>
    have hpair := (lengthsMismatch_iff dl sl).not.mpr (by simpa [faultOf] using h)
    exact ⟨_, if_neg hpair, storeWrapped_faultRecordKept rd dl _ s⟩
  | sub rd rs dl sl =>
    have hpair := (lengthsMismatch_iff dl sl).not.mpr (by simpa [faultOf] using h)
    exact ⟨_, if_neg hpair, (setReg_faultRecordKept s rd _).trans_complete rd dl _ _⟩
  | divs rd dl =>
    have hscl : s.scl.toNat ≠ 0 := by simpa [faultOf, ← BitVec.toNat_inj] using h
    exact ⟨_, if_neg hscl, storeQuotient_faultRecordKept rd dl _ s⟩
  | mulp rd dl imm | shln rd dl imm =>
    exact ⟨_, if_pos (by simpa [faultOf] using h), storeWrapped_faultRecordKept rd dl _ s⟩
  | divp rd dl imm =>
    exact ⟨_, if_pos (by simpa [faultOf] using h), storeQuotient_faultRecordKept rd dl _ s⟩
  | adds rd dl | inc rd dl | muls rd dl | shl1 rd dl ci => exact ⟨_, rfl, storeWrapped_faultRecordKept rd dl _ s⟩
  | cmp rd rs => exact ⟨_, rfl, (FaultRecordKept.refl s).trans_complete rd .three _ _⟩
  | tstz rd dl => exact ⟨_, rfl, (FaultRecordKept.refl s).trans_complete rd dl _ _⟩
  | mov rd rs dl =>
    have hflags : FaultRecordKept s (s.setFlags rd (s.reg rs).flags) := setReg_faultRecordKept s rd _
    exact ⟨_, rfl, (hflags.trans (setReg_faultRecordKept _ rd _)).trans_complete rd dl _ _⟩
  | neg rd => exact ⟨_, rfl, (setReg_faultRecordKept s rd _).trans_complete rd .three _ _⟩
  | setscale rd imm =>
    obtain habove | hlegal := Nat.lt_or_ge 28 imm.toNat
    · exact ⟨_, execSetscale_of_gt habove rd s, errorInvalidArgument_faultRecordKept s⟩
    · exact ⟨_, execSetscale_of_le hlegal rd s, (setReg_faultRecordKept s rd _).trans_complete rd .three _ _⟩
  | rescale rd imm =>
    obtain habove | hlegal := Nat.lt_or_ge 28 imm.toNat
    · exact ⟨_, if_pos habove, errorInvalidArgument_faultRecordKept s⟩
    · exact ⟨_, if_neg (Nat.not_lt_of_le hlegal), (rescaleReg_faultRecordKept rd _ s).trans_complete rd .three _ _⟩
  | align rd rs => exact execAlign_faultRecordKept rd rs s
  | round rd imm strat =>
    obtain hdropped | hkept := Nat.lt_or_ge imm.toNat (s.scale rd)
    · exact ⟨_, execRound_of_lt hdropped strat,
        (State.setVal_setFs_othersSame s rd _ _ _).faultRecordKept.trans_complete rd .three _ _⟩
    · exact ⟨_, execRound_of_le hkept strat, (FaultRecordKept.refl s).trans_complete rd .three _ _⟩

/-! ### The obligation -/

/-- Settles O19: fault entry is precise by `raiseFault_faultEntered`. -/
theorem faultsArePreciseAndOnlyThoseListed : Obligations.FaultsArePreciseAndOnlyThoseListed := by
  unfold Obligations.FaultsArePreciseAndOnlyThoseListed
  intro i s
  exact ⟨fun c hfault => ⟨_, exec_of_faultOf_eq_some hfault, raiseFault_faultEntered c (encode i) s⟩,
    exec_of_faultOf_eq_none⟩

end Sys2Proof.Machine
end

section
/-! PROOFS. RESET and the faulted state (70_reset_and_hazards.md R190; 60_exceptions.md R173, R174): RESET zeroes every word,
and a faulted LKU keeps every word through any other event. -/

namespace Sys2Proof.Machine

/-! ### RESET -/

/-- The words RESET leaves are those of `State.reset`, all zero (10_state.md R37). -/
theorem applyReset_allWordsZero (s : State) : AllWordsZero (applyReset s) := by
  obtain ⟨⟨hreg, hscl, hstatus, hresult, hfaultcmd⟩, -⟩ := applyReset_spec s
  exact ⟨fun r => (hreg r).trans (State.reset_reg r), hscl, hstatus, hresult, hfaultcmd⟩

/-- A step with RESET at the head of the queue is RESET. -/
theorem step_of_reset {s : State} {rest : List HostEvent} (h : s.pending = .reset :: rest) :
    step s = .next (applyReset (s.taken rest [])) := step_of_pending h

/-! ### The faulted state -/

/-- A faulted LKU does nothing on any event but RESET: a read never does, a write is refused or discarded (R173, R177;
20_memory.md R57). -/
theorem perform_of_faulted {s : State} {e : HostEvent} (hfault : s.faulted = true) (he : e ≠ .reset) :
    perform e s = .next s := by
  cases e with
  | read addr n => rfl
  | write addr data =>
    cases htarget : s.writeTarget addr data.length with
    | none => simp [perform, htarget]
    | some m => simp [perform, htarget, hfault]
  | reset => exact absurd rfl he

/-- A step of a faulted LKU that does not perform RESET keeps all 24 words. -/
theorem step_sameUnit_of_faulted {s : State} (hfault : s.faulted = true) (h : ∀ rest, s.pending ≠ .reset :: rest) :
    ∃ t, step s = .next t ∧ SameUnit s t := by
  cases hpending : s.pending with
  | nil => exact ⟨s, step_of_idle hpending, fun _ => rfl, rfl, rfl, rfl, rfl⟩
  | cons e rest =>
    have he : e ≠ .reset := by
      rintro rfl
      exact h rest hpending
    exact ⟨_, (step_of_pending hpending).trans (perform_of_faulted hfault he), State.taken_sameUnit s rest _⟩

/-! ### The obligation -/

/-- Settles O17: a step that cleared FAULT without RESET would contradict `step_sameUnit_of_faulted`, which keeps STATUS. -/
theorem resetClearsEverythingAndAloneClearsFault : Obligations.ResetClearsEverythingAndAloneClearsFault := by
  unfold Obligations.ResetClearsEverythingAndAloneClearsFault
  refine ⟨fun s rest hreset => ⟨_, step_of_reset hreset, applyReset_allWordsZero _⟩, fun s t hstep hfault hclear => ?_⟩
  by_contra hnone
  obtain ⟨t', hstep', -, -, hstatus, -⟩ := step_sameUnit_of_faulted hfault (not_exists.mp hnone)
  obtain rfl : t = t' := by simpa [hstep] using hstep'
  rw [hstatus, hfault] at hclear
  contradiction

end Sys2Proof.Machine
end

section
/-! PROOFS. Command words (30_encoding.md R70 to R75): the fields of a packed word, the one row a word selects, and that the
encoder and the decoder are inverse to each other on the well-formed commands. -/

namespace Sys2Proof

open Sys2Proof.Machine

/-! ### Register numbers, lengths and strategies as field values (R71; 45_round.md R140) -/

@[simp] theorem RegNum.ofBits_toBits (r : RegNum) : RegNum.ofBits r.toBits = r := by cases r <;> rfl

@[simp] theorem RegNum.toBits_ofBits (b : BitVec 2) : (RegNum.ofBits b).toBits = b := by decide +revert

theorem RegNum.toNat_toBits (r : RegNum) : r.toBits.toNat = RegNum.index r := by cases r <;> rfl

@[simp] theorem OpLen.ofBit_toBit (n : OpLen) : OpLen.ofBit n.toBit[0] = n := by cases n <;> rfl

@[simp] theorem OpLen.toBit_ofBit (b : Bool) : (OpLen.ofBit b).toBit = BitVec.ofBool b := by cases b <;> rfl

theorem OpLen.getLsbD_toBit (n : OpLen) : n.toBit.getLsbD 0 = decide (n = .four) := by cases n <;> rfl

@[simp] theorem Strategy.ofBits_toBits (st : Strategy) : Strategy.ofBits st.toBits = some st := by cases st <;> rfl

theorem Strategy.toBits_of_ofBits {b : BitVec 3} {st : Strategy} (h : Strategy.ofBits b = some st) : st.toBits = b := by
  decide +revert

theorem Strategy.ofBits_eq_none_iff (b : BitVec 3) : Strategy.ofBits b = none ↔ b = 7#3 := by decide +revert

theorem Strategy.toBits_eq_stratCode (st : Strategy) : st.toBits = stratCode st := by cases st <;> rfl

/-! ### The fields of a packed word (R71, R77) -/

section Fields

variable (opc : BitVec 8) (rd rs : BitVec 2) (dl sl ci : BitVec 1) (imm : BitVec 8) (strat : BitVec 3)

/-- Bit `k` of a packed word, field by field: each field stands in its own position. -/
theorem getLsbD_packFields (k : Nat) (hk : k < 32) :
    (packFields opc rd rs dl sl ci imm strat).getLsbD k =
      if 24 ≤ k then opc.getLsbD (k - 24) else if 22 ≤ k then rd.getLsbD (k - 22) else if 20 ≤ k then rs.getLsbD (k - 20)
      else if 19 ≤ k then dl.getLsbD (k - 19) else if 18 ≤ k then sl.getLsbD (k - 18)
      else if 16 ≤ k then ci.getLsbD (k - 16) else if 8 ≤ k then imm.getLsbD (k - 8) else strat.getLsbD k := by
  interval_cases k <;> simp [packFields]

/-- A field is the part of the packed word in its position. -/
theorem packFields_fields :
    let w := packFields opc rd rs dl sl ci imm strat
    w.extractLsb' 24 8 = opc ∧ w.extractLsb' 22 2 = rd ∧ w.extractLsb' 20 2 = rs ∧ w.getLsbD 19 = dl.getLsbD 0 ∧
      w.getLsbD 18 = sl.getLsbD 0 ∧ w.getLsbD 17 = false ∧ w.getLsbD 16 = ci.getLsbD 0 ∧ w.extractLsb' 8 8 = imm ∧
      w.extractLsb' 3 5 = 0#5 ∧ w.extractLsb' 0 3 = strat := by
  have hbit := getLsbD_packFields opc rd rs dl sl ci imm strat
  refine ⟨?_, ?_, ?_, ?_, ?_, ?_, ?_, ?_, ?_, ?_⟩
  case refine_4 | refine_5 | refine_6 | refine_7 => rw [hbit _ (by decide)]; simp
  all_goals
    ext i hi
    rw [BitVec.getElem_extractLsb', hbit _ (by omega)]
    interval_cases i <;> simp [BitVec.getLsbD_eq_getElem]

@[simp] theorem fieldRd_packFields : fieldRd (packFields opc rd rs dl sl ci imm strat) = .ofBits rd := by
  obtain ⟨-, hrd, -⟩ := packFields_fields opc rd rs dl sl ci imm strat
  rw [fieldRd, hrd]

@[simp] theorem fieldRs_packFields : fieldRs (packFields opc rd rs dl sl ci imm strat) = .ofBits rs := by
  obtain ⟨-, -, hrs, -⟩ := packFields_fields opc rd rs dl sl ci imm strat
  rw [fieldRs, hrs]

@[simp] theorem fieldDl_packFields : fieldDl (packFields opc rd rs dl sl ci imm strat) = .ofBit dl[0] := by
  obtain ⟨-, -, -, hdl, -⟩ := packFields_fields opc rd rs dl sl ci imm strat
  rw [fieldDl, hdl]
  rfl

@[simp] theorem fieldSl_packFields : fieldSl (packFields opc rd rs dl sl ci imm strat) = .ofBit sl[0] := by
  obtain ⟨-, -, -, -, hsl, -⟩ := packFields_fields opc rd rs dl sl ci imm strat
  rw [fieldSl, hsl]
  rfl

@[simp] theorem fieldCi_packFields : fieldCi (packFields opc rd rs dl sl ci imm strat) = ci[0] := by
  obtain ⟨-, -, -, -, -, -, hci, -⟩ := packFields_fields opc rd rs dl sl ci imm strat
  exact hci

@[simp] theorem fieldImm_packFields : fieldImm (packFields opc rd rs dl sl ci imm strat) = imm := by
  obtain ⟨-, -, -, -, -, -, -, himm, -⟩ := packFields_fields opc rd rs dl sl ci imm strat
  exact himm

@[simp] theorem fieldStrat_packFields : fieldStrat (packFields opc rd rs dl sl ci imm strat) = strat := by
  obtain ⟨-, -, -, -, -, -, -, -, -, hstrat⟩ := packFields_fields opc rd rs dl sl ci imm strat
  exact hstrat

end Fields

/-- A word is determined by its eight fields, its bits 17 and 7:3 being zero. -/
theorem packFields_of_word {w : Word} (h17 : w.getLsbD 17 = false) (h3 : w.extractLsb' 3 5 = 0#5) :
    packFields (fieldOpc w) (w.extractLsb' 22 2) (w.extractLsb' 20 2) (BitVec.ofBool (w.getLsbD 19))
      (BitVec.ofBool (w.getLsbD 18)) (BitVec.ofBool (w.getLsbD 16)) (fieldImm w) (fieldStrat w) = w := by
  have hlow (k : Nat) (hk : 3 ≤ k ∧ k < 8) : w.getLsbD k = false := by
    have h := congrArg (fun v => v.getLsbD (k - 3)) h3
    simpa [show k - 3 < 5 by omega, show 3 + (k - 3) = k by omega] using h
  apply BitVec.eq_of_getLsbD_eq
  intro k hk
  rw [getLsbD_packFields _ _ _ _ _ _ _ _ k hk]
  interval_cases k <;> simp [fieldOpc, fieldImm, fieldStrat, h17, hlow, -BitVec.getLsbD_eq_getElem]

/-- The fields of a command word packed from its operands, by the field table of R71. -/
theorem packFields_commandFields (opc : BitVec 8) (rd rs : RegNum) (dl sl : OpLen) (ci : Bool) (imm : BitVec 8)
    (strat : BitVec 3) :
    CommandFields (packFields opc rd.toBits rs.toBits dl.toBit sl.toBit (BitVec.ofBool ci) imm strat) opc
      (RegNum.index rd) (RegNum.index rs) dl sl ci imm strat := by
  obtain ⟨hopc, hrd, hrs, hdl, hsl, h17, hci, himm, h3, hstrat⟩ :=
    packFields_fields opc rd.toBits rs.toBits dl.toBit sl.toBit (BitVec.ofBool ci) imm strat
  refine ⟨hopc, ?_, ?_, ?_, ?_, h17, ?_, himm, h3, hstrat⟩
  · rw [hrd, RegNum.toNat_toBits]
  · rw [hrs, RegNum.toNat_toBits]
  · rw [hdl, OpLen.getLsbD_toBit]
  · rw [hsl, OpLen.getLsbD_toBit]
  · rw [hci]
    simp

/-! ### The row a word selects (R70, R74) -/

theorem Op.mem_all (o : Op) : o ∈ Op.all := by cases o <;> decide

theorem Op.opcode_injective : Function.Injective Op.opcode := by
  intro o p
  cases o <;> cases p <;> decide

theorem Op.selects_iff (o : Op) (w : Word) : o.selects w = true ↔ w &&& o.mask = o.pattern := beq_iff_eq

/-- In a field that the row fixes, a selected word has the bits of the row's column `match`. -/
theorem Op.selects_extract {o : Op} {w : Word} (h : o.selects w = true) {k n : Nat}
    (hmask : o.mask.extractLsb' k n = BitVec.allOnes n) : w.extractLsb' k n = o.pattern.extractLsb' k n := by
  rw [← (o.selects_iff w).1 h, BitVec.extractLsb'_and, hmask, BitVec.and_allOnes]

/-- The opcode byte decides which row can select a word. -/
theorem Op.fieldOpc_of_selects {o : Op} {w : Word} (h : o.selects w = true) : fieldOpc w = o.opcode :=
  Op.selects_extract h (by cases o <;> decide)

theorem Op.eq_of_selects {o p : Op} {w : Word} (ho : o.selects w = true) (hp : p.selects w = true) : p = o :=
  Op.opcode_injective ((Op.fieldOpc_of_selects hp).symm.trans (Op.fieldOpc_of_selects ho))

theorem selects_of_selectRow {w : Word} {o : Op} (h : selectRow w = some o) : o.selects w = true :=
  List.find?_some (p := fun o : Op => o.selects w) h

/-- The search over the rows finds the one row that selects the word. -/
theorem selectRow_of_selects {o : Op} {w : Word} (h : o.selects w = true) : selectRow w = some o := by
  cases hrow : selectRow w with
  | none => exact absurd h (List.find?_eq_none.mp hrow o o.mem_all)
  | some p => rw [Op.eq_of_selects h (selects_of_selectRow hrow)]

/-- Settles O3: the opcode byte tells the rows apart. -/
theorem wordSelectsAtMostOneRow : Obligations.WordSelectsAtMostOneRow := by
  unfold Obligations.WordSelectsAtMostOneRow
  intro w o h
  exact ⟨selectRow_of_selects h, fun p hp => Op.eq_of_selects h hp⟩

theorem decode_of_selects {o : Op} {w : Word} (h : o.selects w = true) : decode w = buildInstr o w := by
  rw [decode, selectRow_of_selects h]

/-! ### Decoding the word of a command -/

/-- The word of a command selects the command's own row (the family MatchesRow). -/
theorem encode_selects (i : Instr) : i.op.selects (encode i) = true := by
  cases i with
  | add => exact Laws.MatchesRow.add ..
  | adds => exact Laws.MatchesRow.adds ..
  | inc => exact Laws.MatchesRow.inc ..
  | sub => exact Laws.MatchesRow.sub ..
  | muls => exact Laws.MatchesRow.muls ..
  | mulp => exact Laws.MatchesRow.mulp ..
  | divs => exact Laws.MatchesRow.divs ..
  | divp => exact Laws.MatchesRow.divp ..
  | shl1 => exact Laws.MatchesRow.shl1 ..
  | shln => exact Laws.MatchesRow.shln ..
  | cmp => exact Laws.MatchesRow.cmp ..
  | tstz => exact Laws.MatchesRow.tstz ..
  | mov => exact Laws.MatchesRow.mov ..
  | setscale => exact Laws.MatchesRow.setscale ..
  | neg => exact Laws.MatchesRow.neg ..
  | rescale => exact Laws.MatchesRow.rescale ..
  | align => exact Laws.MatchesRow.align ..
  | round => exact Laws.MatchesRow.round ..

/-- The fields read from the word of a well-formed command are the command's. -/
theorem buildInstr_encode {i : Instr} (h : i.wellFormed = true) : buildInstr i.op (encode i) = .ok i := by
  cases i with
  | mulp rd dl imm | divp rd dl imm | shln rd dl imm =>
    have hle := of_decide_eq_true h
    simp [Instr.op, buildInstr, encode, hle]
  | add | adds | inc | sub | muls | divs | shl1 | cmp | tstz | mov | setscale | neg | rescale | align | round =>
    simp [Instr.op, buildInstr, encode]

/-- Settles O1. -/
theorem encodedCommandDecodesBack : Obligations.EncodedCommandDecodesBack := by
  unfold Obligations.EncodedCommandDecodesBack
  intro i h
  rw [decode_of_selects (encode_selects i), buildInstr_encode h]

/-! ### Encoding what a word decodes to -/

/-- Below the opcode byte the column `match` is zero. -/
theorem Op.pattern_extract_zero (o : Op) {k n : Nat} (hk : k + n ≤ 24) : o.pattern.extractLsb' k n = 0#n := by
  have hpattern : o.pattern = o.opcode.setWidth 32 <<< 24 := by cases o <;> rfl
  ext i hi
  rw [BitVec.getElem_extractLsb', hpattern, BitVec.getLsbD_shiftLeft]
  simp [show k + i < 24 by omega]

section Selected

variable {o : Op} {w : Word} (h : o.selects w = true)
include h

/-- A field that the row fixes below the opcode byte is zero in a selected word. -/
theorem Op.selects_zero {k n : Nat} (hk : k + n ≤ 24) (hmask : o.mask.extractLsb' k n = BitVec.allOnes n) :
    w.extractLsb' k n = 0#n :=
  (Op.selects_extract h hmask).trans (o.pattern_extract_zero hk)

/-- A bit that the row fixes below the opcode byte is zero in a selected word. -/
theorem Op.selects_bit {k : Nat} (hk : k < 24) (hmask : o.mask.extractLsb' k 1 = 1#1) : w.getLsbD k = false := by
  have hbit := congrArg (fun v => v.getLsbD 0) (Op.selects_zero h hk hmask)
  simpa using hbit

theorem Op.unusedRs (hmask : o.mask.extractLsb' 20 2 = 3#2) : fieldRs w = .v0 := by
  rw [fieldRs, Op.selects_zero h (by decide) hmask]
  rfl

theorem Op.unusedDl (hmask : o.mask.extractLsb' 19 1 = 1#1) : fieldDl w = .three := by
  rw [fieldDl, Op.selects_bit h (by decide) hmask]
  rfl

theorem Op.unusedSl (hmask : o.mask.extractLsb' 18 1 = 1#1) : fieldSl w = .three := by
  rw [fieldSl, Op.selects_bit h (by decide) hmask]
  rfl

theorem Op.unusedCi (hmask : o.mask.extractLsb' 16 1 = 1#1) : fieldCi w = false := Op.selects_bit h (by decide) hmask

theorem Op.unusedImm (hmask : o.mask.extractLsb' 8 8 = 0xFF#8) : fieldImm w = 0#8 :=
  Op.selects_zero h (by decide) hmask

theorem Op.unusedStrat (hmask : o.mask.extractLsb' 0 3 = 7#3) : fieldStrat w = 0#3 :=
  Op.selects_zero h (by decide) hmask

/-- A selected word is packed from the row's OPC and the word's own fields: bits 17 and 7:3 are fixed in every row. -/
theorem packFields_of_selects :
    packFields o.opcode (fieldRd w).toBits (fieldRs w).toBits (fieldDl w).toBit (fieldSl w).toBit
      (BitVec.ofBool (fieldCi w)) (fieldImm w) (fieldStrat w) = w := by
  have h17 : w.getLsbD 17 = false := Op.selects_bit h (by decide) (by cases o <;> decide)
  have h3 : w.extractLsb' 3 5 = 0#5 := Op.selects_zero h (by decide) (by cases o <;> decide)
  rw [← Op.fieldOpc_of_selects h]
  simpa [fieldRd, fieldRs, fieldDl, fieldSl, fieldCi] using packFields_of_word h17 h3

/-- A command built from a selected word is well-formed and has that word: the fields its format does not use are fixed to
zero by the row. -/
theorem encode_of_buildInstr {i : Instr} (hb : buildInstr o w = .ok i) : i.wellFormed = true ∧ encode i = w := by
  have hw := packFields_of_selects h
  cases o with
  | add | sub =>
    obtain ⟨⟩ := hb
    rw [Op.unusedCi h rfl, Op.unusedImm h rfl, Op.unusedStrat h rfl] at hw
    exact ⟨rfl, hw⟩
  | adds | inc | muls | divs | tstz =>
    obtain ⟨⟩ := hb
    rw [Op.unusedRs h rfl, Op.unusedSl h rfl, Op.unusedCi h rfl, Op.unusedImm h rfl, Op.unusedStrat h rfl] at hw
    exact ⟨rfl, hw⟩
  | mulp | divp | shln =>
    rw [buildInstr] at hb
    split_ifs at hb with hle
    obtain ⟨⟩ := hb
    rw [Op.unusedRs h rfl, Op.unusedSl h rfl, Op.unusedCi h rfl, Op.unusedStrat h rfl] at hw
    exact ⟨decide_eq_true hle, hw⟩
  | shl1 =>
    obtain ⟨⟩ := hb
    rw [Op.unusedRs h rfl, Op.unusedSl h rfl, Op.unusedImm h rfl, Op.unusedStrat h rfl] at hw
    exact ⟨rfl, hw⟩
  | cmp | align =>
    obtain ⟨⟩ := hb
    rw [Op.unusedDl h rfl, Op.unusedSl h rfl, Op.unusedCi h rfl, Op.unusedImm h rfl, Op.unusedStrat h rfl] at hw
    exact ⟨rfl, hw⟩
  | mov =>
    obtain ⟨⟩ := hb
    rw [Op.unusedSl h rfl, Op.unusedCi h rfl, Op.unusedImm h rfl, Op.unusedStrat h rfl] at hw
    exact ⟨rfl, hw⟩
  | setscale | rescale =>
    obtain ⟨⟩ := hb
    rw [Op.unusedRs h rfl, Op.unusedDl h rfl, Op.unusedSl h rfl, Op.unusedCi h rfl, Op.unusedStrat h rfl] at hw
    exact ⟨rfl, hw⟩
  | neg =>
    obtain ⟨⟩ := hb
    rw [Op.unusedRs h rfl, Op.unusedDl h rfl, Op.unusedSl h rfl, Op.unusedCi h rfl, Op.unusedImm h rfl,
      Op.unusedStrat h rfl] at hw
    exact ⟨rfl, hw⟩
  | round =>
    rw [Op.unusedRs h rfl, Op.unusedDl h rfl, Op.unusedSl h rfl, Op.unusedCi h rfl] at hw
    cases hst : Strategy.ofBits (fieldStrat w) with
    | none => simp [buildInstr, hst] at hb
    | some st =>
      obtain rfl : Instr.round (fieldRd w) (fieldImm w) st = i := by simpa [buildInstr, hst] using hb
      rw [← Strategy.toBits_of_ofBits hst] at hw
      exact ⟨rfl, hw⟩

end Selected

/-- What the decoder accepts it built from the row the word selects. -/
theorem decode_eq_ok_iff (w : Word) (i : Instr) :
    decode w = .ok i ↔ ∃ o : Op, o.selects w = true ∧ buildInstr o w = .ok i := by
  constructor
  · intro h
    unfold decode at h
    split at h
    · next o hrow => exact ⟨o, selects_of_selectRow hrow, h⟩
    · split at h <;> cases h
  · rintro ⟨o, hsel, hb⟩
    rw [decode_of_selects hsel, hb]

/-- Settles O2. -/
theorem acceptedWordEncodesBack : Obligations.AcceptedWordEncodesBack := by
  unfold Obligations.AcceptedWordEncodesBack
  intro w i h
  obtain ⟨o, hsel, hb⟩ := (decode_eq_ok_iff w i).1 h
  exact encode_of_buildInstr hsel hb

/-! ### Worked words and literal fields -/

/-- Settles O4: each word is evaluated. -/
theorem workedEncodingsDecode : Obligations.WorkedEncodingsDecode := by
  unfold Obligations.WorkedEncodingsDecode
  decide

/-- Settles O52: every word is packed from its command's operands, zero (v0, three limbs, no carry-in) for a field that the
format does not use. -/
theorem encodingHasTheLiteralFields : Obligations.EncodingHasTheLiteralFields := by
  unfold Obligations.EncodingHasTheLiteralFields
  intro rd rs dl sl ci imm strat
  have hround := packFields_commandFields 0x22#8 rd .v0 .three .three false imm strat.toBits
  rw [strat.toBits_eq_stratCode] at hround
  exact ⟨packFields_commandFields _ rd rs dl sl false _ _, packFields_commandFields _ rd .v0 dl .three false _ _,
    packFields_commandFields _ rd .v0 dl .three false _ _, packFields_commandFields _ rd rs dl sl false _ _,
    packFields_commandFields _ rd .v0 dl .three false _ _, packFields_commandFields _ rd .v0 dl .three false imm _,
    packFields_commandFields _ rd .v0 dl .three false _ _, packFields_commandFields _ rd .v0 dl .three false imm _,
    packFields_commandFields _ rd .v0 dl .three ci _ _, packFields_commandFields _ rd .v0 dl .three false imm _,
    packFields_commandFields _ rd rs .three .three false _ _, packFields_commandFields _ rd .v0 dl .three false _ _,
    packFields_commandFields _ rd rs dl .three false _ _, packFields_commandFields _ rd .v0 .three .three false imm _,
    packFields_commandFields _ rd .v0 .three .three false _ _, packFields_commandFields _ rd .v0 .three .three false imm _,
    packFields_commandFields _ rd rs .three .three false _ _, hround⟩

/-! ### Illegal words (R75) -/

/-- The two columns of `maskOfOpc` are those of the opcode table. -/
theorem maskOfOpc_eq : maskOfOpc = Op.all.map (fun o => (o.opcode, o.mask)) := rfl

theorem mem_maskOfOpc_iff (row : BitVec 8 × Word) : row ∈ maskOfOpc ↔ ∃ o : Op, (o.opcode, o.mask) = row := by
  simp [maskOfOpc_eq, Op.mem_all]

/-- A word is its opcode byte and the 24 bits below it. -/
theorem word_eq_of_parts {x y : Word} (hhigh : x.extractLsb' 24 8 = y.extractLsb' 24 8)
    (hlow : x.extractLsb' 0 24 = y.extractLsb' 0 24) : x = y := by
  apply BitVec.eq_of_getLsbD_eq
  intro k hk
  obtain hk24 | hk24 := Nat.lt_or_ge k 24
  · simpa [hk24] using congrArg (fun v => v.getLsbD k) hlow
  · simpa [show k - 24 < 8 by omega, Nat.add_sub_cancel' hk24] using congrArg (fun v => v.getLsbD (k - 24)) hhigh

/-- A row selects a word exactly when the word has its OPC (else R75 item 1) and zero in its must-be-zero fields (else
item 2). -/
theorem Op.selects_iff_fields (o : Op) (w : Word) :
    o.selects w = true ↔
      o.opcode = w.extractLsb' 24 8 ∧ w.extractLsb' 0 24 &&& o.mask.extractLsb' 0 24 = 0#24 := by
  have hmask : o.mask.extractLsb' 24 8 = BitVec.allOnes 8 := by cases o <;> decide
  constructor
  · intro h
    refine ⟨(Op.fieldOpc_of_selects h).symm, ?_⟩
    rw [← BitVec.extractLsb'_and, (o.selects_iff w).1 h, o.pattern_extract_zero (by decide)]
  · rintro ⟨hopc, hzero⟩
    refine (o.selects_iff w).2 (word_eq_of_parts ?_ ?_)
    · rw [BitVec.extractLsb'_and, hmask, BitVec.and_allOnes, ← hopc, Op.opcode]
    · rw [BitVec.extractLsb'_and, hzero, o.pattern_extract_zero (by decide)]

/-- The field-value checks of R75 item 3 are where a row refuses to build a command. -/
theorem buildInstr_refuses_iff (o : Op) (w : Word) :
    (∀ i, buildInstr o w ≠ .ok i) ↔
      ((o = .mulp ∨ o = .divp) ∧ 9 < (fieldImm w).toNat) ∨ (o = .shln ∧ 32 < (fieldImm w).toNat) ∨
        (o = .round ∧ fieldStrat w = 7#3) := by
  cases o with
  | mulp | divp | shln =>
    rw [buildInstr]
    split_ifs with hle <;> simp [Nat.not_lt_of_le, Nat.lt_of_not_le, hle]
  | round =>
    cases hst : Strategy.ofBits (fieldStrat w) with
    | none =>
      rw [buildInstr, hst]
      simp [(Strategy.ofBits_eq_none_iff _).1 hst]
    | some st =>
      have hne : fieldStrat w ≠ 7#3 := fun h7 => by simp [(Strategy.ofBits_eq_none_iff _).2 h7] at hst
      simp [buildInstr, hst, hne]
  | add | adds | inc | sub | muls | divs | shl1 | cmp | tstz | mov | setscale | neg | rescale | align =>
    simp [buildInstr]

/-- R75: the illegal words are those the decoder refuses. -/
theorem illegalWord_iff (w : Word) : IllegalWord w ↔ ∀ i, decode w ≠ .ok i := by
  by_cases hsel : ∃ o : Op, o.selects w = true
  · obtain ⟨o, ho⟩ := hsel
    have hopc : w.extractLsb' 24 8 = o.opcode := Op.fieldOpc_of_selects ho
    have hzero := ((o.selects_iff_fields w).1 ho).2
    have hassigned : ¬ ∀ row ∈ maskOfOpc, row.1 ≠ w.extractLsb' 24 8 :=
      fun h => h _ ((mem_maskOfOpc_iff _).2 ⟨o, rfl⟩) hopc.symm
    have hmbz : ¬ ∃ row ∈ maskOfOpc, row.1 = w.extractLsb' 24 8 ∧
        w.extractLsb' 0 24 &&& row.2.extractLsb' 0 24 ≠ 0#24 := by
      rintro ⟨row, hrow, hrowOpc, hne⟩
      obtain ⟨p, rfl⟩ := (mem_maskOfOpc_iff row).1 hrow
      obtain rfl : p = o := Op.opcode_injective (hrowOpc.trans hopc)
      exact hne hzero
    rw [IllegalWord, or_iff_right hassigned, or_iff_right hmbz, decode_of_selects ho, buildInstr_refuses_iff, hopc]
    have hcode (p : Op) : o.opcode = p.opcode ↔ o = p := Op.opcode_injective.eq_iff
    exact or_congr (and_congr_left' (or_congr (hcode .mulp) (hcode .divp)))
      (or_congr (and_congr_left' (hcode .shln)) (and_congr_left' (hcode .round)))
  · have hrefused : ∀ i, decode w ≠ .ok i := fun i hi => by
      obtain ⟨o, ho, -⟩ := (decode_eq_ok_iff w i).1 hi
      exact hsel ⟨o, ho⟩
    refine iff_of_true ?_ hrefused
    by_cases hopc : ∃ o : Op, o.opcode = w.extractLsb' 24 8
    · obtain ⟨o, ho⟩ := hopc
      refine .inr (.inl ⟨_, (mem_maskOfOpc_iff _).2 ⟨o, rfl⟩, ho, fun hzero => hsel ⟨o, ?_⟩⟩)
      exact (o.selects_iff_fields w).2 ⟨ho, hzero⟩
    · refine .inl fun row hrow hrowOpc => hopc ?_
      obtain ⟨o, rfl⟩ := (mem_maskOfOpc_iff row).1 hrow
      exact ⟨o, hrowOpc⟩

end Sys2Proof
end

section
/-! PROOFS. What a command can do to the 24 words: its fault, its error outcome, or register writes among the words of
10_state.md R32 and then a normal completion. The frame over the bytes of the register map follows. -/

namespace Sys2Proof.Machine

/-! ### Writes among given words of the map -/

/-- From `s` to `t` at most the words `ms` of the map change. -/
def WritesOnly (ms : List MapReg) (s t : State) : Prop :=
  (∀ m, m ∉ ms → t.readMap m = s.readMap m) ∧ SameHost s t

theorem WritesOnly.refl (ms : List MapReg) (s : State) : WritesOnly ms s s := ⟨fun _ _ => rfl, rfl, rfl, rfl⟩

theorem WritesOnly.trans {ms : List MapReg} {s t u : State} (h : WritesOnly ms s t) (k : WritesOnly ms t u) :
    WritesOnly ms s u := by
  obtain ⟨hwords, hbase, hpending, hresponses⟩ := h
  obtain ⟨kwords, kbase, kpending, kresponses⟩ := k
  exact ⟨fun m hm => (kwords m hm).trans (hwords m hm), kbase.trans hbase, kpending.trans hpending,
    kresponses.trans hresponses⟩

theorem WritesOnly.mono {ms ms' : List MapReg} {s t : State} (h : WritesOnly ms s t) (hsub : ms ⊆ ms') :
    WritesOnly ms' s t :=
  ⟨fun m hm => h.1 m (fun hmem => hm (hsub hmem)), h.2⟩

theorem setReg_sameHost (s : State) (i : RegNum) (d : DecReg) : SameHost s (s.setReg i d) := by simp [SameHost]

/-- `setval` writes its limbs. -/
theorem setVal_writesOnly (s : State) (i : RegNum) (n : OpLen) (v : Nat) :
    WritesOnly (limbWords i n) s (s.setVal i n v) := by
  refine ⟨fun m hm => ?_, setReg_sameHost s i _⟩
  cases m with
  | flags j | lo j | mid j | hi j | ext j =>
    by_cases hj : j = i
    · subst hj
      cases n <;> simp_all [limbWords, State.readMap]
    · simp [State.readMap, State.setVal, hj]
  | scl | cmd | status | result | faultcmd => simp [State.readMap, State.setVal]

/-- Replacing a flag word writes that word. -/
theorem setFlags_writesOnly (s : State) (i : RegNum) (w : Word) : WritesOnly [.flags i] s (s.setFlags i w) := by
  refine ⟨fun m hm => ?_, setReg_sameHost s i _⟩
  cases m with
  | flags j | lo j | mid j | hi j | ext j =>
    by_cases hj : j = i
    · subst hj
      simp_all [State.readMap]
    · simp [State.readMap, State.setFlags, hj]
  | scl | cmd | status | result | faultcmd => simp [State.readMap, State.setFlags]

/-- A mantissa and a flag word. -/
theorem setVal_setFs_writesOnly (s : State) (i : RegNum) (v : Nat) (sg : Bool) (sc : Nat) :
    WritesOnly (.flags i :: limbWords i .three) s ((s.setVal i .three v).setFs i sg sc) :=
  ((setVal_writesOnly s i .three v).mono (List.subset_cons_self _ _)).trans
    ((setFlags_writesOnly _ i _).mono (by simp))

/-- RESULT and STATUS are all a completion writes. -/
theorem complete_readMap (rd : RegNum) (n : OpLen) (v : Nat) (f : CompletionFlags) (s : State) {m : MapReg}
    (hstatus : m ≠ .status) (hresult : m ≠ .result) : (complete rd n v f s).readMap m = s.readMap m := by
  cases m <;> simp_all [State.readMap]

theorem errorInvalidArgument_readMap (s : State) {m : MapReg} (hstatus : m ≠ .status) (hresult : m ≠ .result) :
    (errorInvalidArgument s).readMap m = s.readMap m := by
  cases m <;> simp_all [State.readMap]

/-- The words of the decimal registers. -/
def MapReg.isRegWord : MapReg → Bool
  | .flags _ | .lo _ | .mid _ | .hi _ | .ext _ => true
  | .scl | .cmd | .status | .result | .faultcmd => false

theorem isRegWord_of_mem_limbWords {m : MapReg} {r : RegNum} {n : OpLen} (h : m ∈ limbWords r n) :
    m.isRegWord = true := by
  cases m with
  | flags | lo | mid | hi | ext => rfl
  | scl | cmd | status | result | faultcmd => cases n <;> simp [limbWords] at h

/-- The words of the column "writes" of R32 are words of decimal registers. -/
theorem isRegWord_of_mem_writesOf {i : Instr} {m : MapReg} (h : m ∈ writesOf i) : m.isRegWord = true := by
  cases i with
  | add | sub | adds | inc | muls | mulp | divs | divp | shl1 | shln => exact isRegWord_of_mem_limbWords h
  | cmp | tstz => cases h
  | setscale | neg => rw [List.mem_singleton.mp h, MapReg.isRegWord]
  | mov | rescale | round =>
    obtain rfl | hlimb := List.mem_cons.mp h
    · rfl
    · exact isRegWord_of_mem_limbWords hlimb
  | align =>
    obtain hd | hs := List.mem_append.mp h
    · obtain rfl | hlimb := List.mem_cons.mp hd
      · rfl
      · exact isRegWord_of_mem_limbWords hlimb
    · obtain rfl | hlimb := List.mem_cons.mp hs
      · rfl
      · exact isRegWord_of_mem_limbWords hlimb

/-- They are not the two words that every completion writes. -/
theorem ne_of_mem_writesOf {i : Instr} {m : MapReg} (h : m ∈ writesOf i) : m ≠ .status ∧ m ≠ .result := by
  have hreg := isRegWord_of_mem_writesOf h
  constructor <;> (rintro rfl; cases hreg)

/-- So what is no word of a decimal register is kept by a command's register writes. -/
theorem WritesOnly.readMap_of_not_regWord {i : Instr} {s t : State} (h : WritesOnly (writesOf i) s t) {m : MapReg}
    (hm : m.isRegWord = false) : t.readMap m = s.readMap m :=
  h.1 m fun hmem => by simp [isRegWord_of_mem_writesOf hmem] at hm

/-! ### The rescaler's writes (44_rescale_align.md R130) -/

/-- Rounding half up after dropping a digit stays inside the 96 bits. -/
theorem halfUp_reduceDigits_lt {d m rem m' rem' : Nat} (hd : 0 < d) (hm : m < 2 ^ 96)
    (h : reduceDigits d m rem = some (m', rem')) : halfUp m' rem' < 2 ^ 96 := by
  have hle : m' ≤ m / 10 := by
    rw [(reduceDigits_some h).1]
    exact Nat.div_le_div_left (Nat.le_self_pow (by omega) 10) (by decide)
  unfold halfUp
  split <;> omega

/-- `rescale_reg` keeps the state, or stores a mantissa and a flag word whose scale is at most the target, a zero mantissa
with SIGN 0. -/
theorem rescaleReg_state (i : RegNum) (ts : Nat) (s : State) :
    (rescaleReg i ts s).state = s ∨
      ∃ v sg sc, v < 2 ^ 96 ∧ sc ≤ ts ∧ (v = 0 → sg = false) ∧
        (rescaleReg i ts s).state = (s.setVal i .three v).setFs i sg sc := by
  have hlt : s.val i .three < 2 ^ 96 := State.val_lt s i .three
  unfold rescaleReg
  split_ifs with hsame hzero hdown
  · exact .inl rfl
  · refine .inr ⟨0, false, ts, Nat.two_pow_pos 96, Nat.le_refl _, fun _ => rfl, ?_⟩
    rw [← hzero, State.setVal, State.val, DecReg.setVal_val, State.setReg_reg]
  · right
    unfold reduceReg
    split
    · exact ⟨0, false, ts, Nat.two_pow_pos 96, Nat.le_refl _, fun _ => rfl, rfl⟩
    · next m rem hsome =>
      refine ⟨halfUp m rem, _, ts, halfUp_reduceDigits_lt (Nat.sub_pos_of_lt hdown) hlt hsome, Nat.le_refl _, ?_, rfl⟩
      intro h0
      simp [h0]
  · obtain ⟨-, hval, hfits, -⟩ := raiseDigits_spec (ts - s.scale i) _ hlt
    refine .inr ⟨_, s.sign i, _, hfits, Nat.sub_le _ _, fun h0 => ?_, rfl⟩
    have hpos : 0 < 10 ^ (ts - s.scale i - (raiseDigits (ts - s.scale i) (s.val i .three)).2) := Nat.pow_pos (by decide)
    rw [hval] at h0
    exact absurd h0 (Nat.mul_ne_zero hzero hpos.ne')

theorem rescaleReg_writesOnly (i : RegNum) (ts : Nat) (s : State) :
    WritesOnly (.flags i :: limbWords i .three) s (rescaleReg i ts s).state := by
  obtain hsame | ⟨v, sg, sc, -, -, -, hstate⟩ := rescaleReg_state i ts s
  · rw [hsame]
    exact .refl _ s
  · rw [hstate]
    exact setVal_setFs_writesOnly s i v sg sc

/-! ### Legal flag words -/

/-- Every decimal register holds a legal flag word (10_state.md R23). -/
def AllFlagsLegal (s : State) : Prop := ∀ r, FlagsLegal (s.reg r).flags

theorem flagsLegal_packFlags (sg : Bool) {sc : Nat} (h : sc ≤ 28) : FlagsLegal (packFlags sg sc) :=
  (legalFlags_iff _).1 (legalFlags_packFlags sg h)

/-- Replacing a register by one with a legal flag word. -/
theorem AllFlagsLegal.setReg {s : State} (h : AllFlagsLegal s) (i : RegNum) {d : DecReg} (hd : FlagsLegal d.flags) :
    AllFlagsLegal (s.setReg i d) := by
  intro r
  by_cases hr : r = i
  · subst hr
    rwa [State.reg_setReg_same]
  · rw [State.reg_setReg_ne s d hr]
    exact h r

theorem AllFlagsLegal.setVal {s : State} (h : AllFlagsLegal s) (i : RegNum) (n : OpLen) (v : Nat) :
    AllFlagsLegal (s.setVal i n v) :=
  h.setReg i (by rw [DecReg.setVal_flags]; exact h i)

theorem AllFlagsLegal.setFlags {s : State} (h : AllFlagsLegal s) (i : RegNum) {w : Word} (hw : FlagsLegal w) :
    AllFlagsLegal (s.setFlags i w) :=
  h.setReg i hw

theorem AllFlagsLegal.setFs {s : State} (h : AllFlagsLegal s) (i : RegNum) (sg : Bool) {sc : Nat} (hsc : sc ≤ 28) :
    AllFlagsLegal (s.setFs i sg sc) :=
  h.setReg i (flagsLegal_packFlags sg hsc)

theorem AllFlagsLegal.scale_le {s : State} (h : AllFlagsLegal s) (i : RegNum) : s.scale i ≤ 28 := (h i).2.2

theorem AllFlagsLegal.rescaleReg {s : State} (h : AllFlagsLegal s) (i : RegNum) {ts : Nat} (hts : ts ≤ 28) :
    AllFlagsLegal (rescaleReg i ts s).state := by
  obtain hsame | ⟨v, sg, sc, -, hsc, -, hstate⟩ := rescaleReg_state i ts s
  · rwa [hsame]
  · rw [hstate]
    exact (h.setVal i .three v).setFs i sg (hsc.trans hts)

/-! ### What a command leaves before it completes -/

/-- The register writes of a command, from `s` to `b`: words of the column "writes" of R32 only, flag words staying legal. -/
def CommandBody (i : Instr) (s b : State) : Prop := WritesOnly (writesOf i) s b ∧ (AllFlagsLegal s → AllFlagsLegal b)

theorem setVal_commandBody {i : Instr} {rd : RegNum} {n : OpLen} (h : writesOf i = limbWords rd n) (s : State) (v : Nat) :
    CommandBody i s (s.setVal rd n v) :=
  ⟨h ▸ setVal_writesOnly s rd n v, fun hlegal => hlegal.setVal rd n v⟩

theorem CommandBody.refl (i : Instr) (s : State) : CommandBody i s s := ⟨.refl _ s, id⟩

/-- ALIGN's one or two rescales (R132). -/
theorem alignRegs_commandBody {rd rs low high : RegNum} (h : low = rd ∧ high = rs ∨ low = rs ∧ high = rd) (s : State) :
    CommandBody (.align rd rs) s (alignRegs low high s).state := by
  have hlow : MapReg.flags low :: limbWords low .three ⊆ writesOf (.align rd rs) := by
    obtain ⟨rfl, rfl⟩ | ⟨rfl, rfl⟩ := h <;> simp [writesOf, limbWords]
  have hhigh : MapReg.flags high :: limbWords high .three ⊆ writesOf (.align rd rs) := by
    obtain ⟨rfl, rfl⟩ | ⟨rfl, rfl⟩ := h <;> simp [writesOf, limbWords]
  have hraise := (rescaleReg_writesOnly low (s.scale high) s).mono hlow
  unfold alignRegs
  simp only
  split
  · refine ⟨hraise.trans ((rescaleReg_writesOnly high _ _).mono hhigh), fun hlegal => ?_⟩
    have hup := hlegal.rescaleReg low (hlegal.scale_le high)
    exact hup.rescaleReg high (hup.scale_le low)
  · exact ⟨hraise, fun hlegal => hlegal.rescaleReg low (hlegal.scale_le high)⟩

/-- A command without a fault is the error outcome, or register writes and then a normal completion. -/
def EndsNormally (i : Instr) (s : State) : Prop :=
  exec i s = .next (errorInvalidArgument s) ∨
    ∃ rd n v f b, exec i s = .next (complete rd n v f b) ∧ CommandBody i s b

theorem endsNormally_of_faultOf_eq_none {i : Instr} {s : State} (h : faultOf i s = none) : EndsNormally i s := by
  cases i with
  | add rd rs dl sl | sub rd rs dl sl =>
    have hpair := (lengthsMismatch_iff dl sl).not.mpr (by simpa [faultOf] using h)
    exact .inr ⟨_, _, _, _, _, if_neg hpair, setVal_commandBody rfl s _⟩
  | divs rd dl =>
    have hscl : s.scl.toNat ≠ 0 := by simpa [faultOf, ← BitVec.toNat_inj] using h
    exact .inr ⟨_, _, _, _, _, if_neg hscl, setVal_commandBody rfl s _⟩
  | mulp rd dl imm | divp rd dl imm | shln rd dl imm =>
    exact .inr ⟨_, _, _, _, _, if_pos (by simpa [faultOf] using h), setVal_commandBody rfl s _⟩
  | adds rd dl | inc rd dl | muls rd dl | shl1 rd dl ci =>
    exact .inr ⟨_, _, _, _, _, rfl, setVal_commandBody rfl s _⟩
  | cmp | tstz => exact .inr ⟨_, _, _, _, _, rfl, .refl _ s⟩
  | mov rd rs dl =>
    refine .inr ⟨_, _, _, _, _, rfl, ?_, fun hlegal => ?_⟩
    · exact ((setFlags_writesOnly s rd _).mono (by simp [writesOf])).trans
        ((setVal_writesOnly _ rd dl _).mono (List.subset_cons_self _ _))
    · exact (hlegal.setFlags rd (hlegal rs)).setVal rd dl _
  | setscale rd imm =>
    obtain habove | hle := Nat.lt_or_ge 28 imm.toNat
    · exact .inl (execSetscale_of_gt habove rd s)
    · exact .inr ⟨_, _, _, _, _, execSetscale_of_le hle rd s, setFlags_writesOnly s rd _,
        fun hlegal => hlegal.setFs rd _ hle⟩
  | neg rd =>
    exact .inr ⟨_, _, _, _, _, rfl, setFlags_writesOnly s rd _, fun hlegal => hlegal.setFs rd _ (hlegal.scale_le rd)⟩
  | rescale rd imm =>
    obtain habove | hle := Nat.lt_or_ge 28 imm.toNat
    · exact .inl (if_pos habove)
    · exact .inr ⟨_, _, _, _, _, if_neg (Nat.not_lt_of_le hle), rescaleReg_writesOnly rd _ s,
        fun hlegal => hlegal.rescaleReg rd hle⟩
  | align rd rs =>
    refine .inr ⟨_, _, _, _, _, rfl, ?_⟩
    split_ifs
    · exact .refl _ s
    · exact alignRegs_commandBody (.inl ⟨rfl, rfl⟩) s
    · exact alignRegs_commandBody (.inr ⟨rfl, rfl⟩) s
  | round rd imm strat =>
    obtain hdropped | hkept := Nat.lt_or_ge imm.toNat (s.scale rd)
    · exact .inr ⟨_, _, _, _, _, execRound_of_lt hdropped strat, setVal_setFs_writesOnly s rd _ _ _,
        fun hlegal => (hlegal.setVal rd .three _).setFs rd _ (hdropped.le.trans (hlegal.scale_le rd))⟩
    · exact .inr ⟨_, _, _, _, _, execRound_of_le hkept strat, .refl _ s⟩

/-- What a command can do: its fault, or its normal end. -/
theorem exec_cases (i : Instr) (s : State) :
    (∃ c, faultOf i s = some c ∧ exec i s = .next (raiseFault c (encode i) s)) ∨
      (faultOf i s = none ∧ EndsNormally i s) := by
  cases h : faultOf i s with
  | none => exact .inr ⟨rfl, endsNormally_of_faultOf_eq_none h⟩
  | some c => exact .inl ⟨c, rfl, exec_of_faultOf_eq_some h⟩

/-- No command stops the machine, and none touches the host's side. -/
theorem exec_sameHost (i : Instr) (s : State) : ∃ t, exec i s = .next t ∧ SameHost s t := by
  obtain ⟨c, -, hexec⟩ | ⟨-, hexec | ⟨rd, n, v, f, b, hexec, hbody, -⟩⟩ := exec_cases i s
  · exact ⟨_, hexec, rfl, rfl, rfl⟩
  · exact ⟨_, hexec, rfl, rfl, rfl⟩
  · exact ⟨_, hexec, hbody.2⟩

/-! ### The frame over the register map (10_state.md R32) -/

/-- A command that does not fault keeps every word but those R32 lists, STATUS and RESULT. -/
theorem exec_readMap {i : Instr} {s t : State} (hexec : exec i s = .next t) (hfault : faultOf i s = none) {m : MapReg}
    (hm : m ∉ writesOf i) (hstatus : m ≠ .status) (hresult : m ≠ .result) : t.readMap m = s.readMap m := by
  obtain herr | ⟨rd, n, v, f, b, hdone, hbody, -⟩ := endsNormally_of_faultOf_eq_none hfault
  · obtain ⟨⟩ := herr.symm.trans hexec
    exact errorInvalidArgument_readMap s hstatus hresult
  · obtain ⟨⟩ := hdone.symm.trans hexec
    rw [complete_readMap rd n v f b hstatus hresult, hbody.1 m hm]

theorem locate_of_baseWord {s t : State} (h : t.baseWord = s.baseWord) (addr n : Nat) :
    t.locate addr n = s.locate addr n := by
  unfold State.locate State.base
  rw [h]

/-- Settles O23: a byte of the map is a byte of the word it lies in, and `BASE` stays. -/
theorem commandsWriteOnlyTheirWords : Obligations.CommandsWriteOnlyTheirWords := by
  unfold Obligations.CommandsWriteOnlyTheirWords
  intro i s t hexec hfault addr hframe
  obtain ⟨t', hexec', hbase, -⟩ := exec_sameHost i s
  obtain ⟨⟩ := hexec'.symm.trans hexec
  rw [State.mapByte, State.mapByte, locate_of_baseWord hbase]
  cases hloc : s.locate (addr / 4 * 4) 4 with
  | none => rfl
  | some m =>
    obtain ⟨hm, hstatus, hresult⟩ := hframe m hloc
    exact congrArg (Option.map _) (exec_readMap hexec hfault hm hstatus hresult)

end Sys2Proof.Machine
end

section
/-! PROOFS. The step and the host's transactions (10_state.md R20, R34; 20_memory.md R51 to R65; 60_exceptions.md R173, R176):
every step answers, which accesses the bus refuses, and what an accepted one does in and out of the faulted state. -/

namespace Sys2Proof.Machine

/-! ### Every step answers -/

theorem SameHost.refl (s : State) : SameHost s s := ⟨rfl, rfl, rfl⟩

/-- An accepted write keeps the host's side: a CMD write is the command it carries, any other stores a word or is refused. -/
theorem writeMap_sameHost (m : MapReg) (v : Word) (s : State) : ∃ t, writeMap m v s = .next t ∧ SameHost s t := by
  cases m with
  | flags i =>
    refine ⟨_, rfl, ?_⟩
    unfold writeFlags
    split
    · exact setReg_sameHost s i _
    · exact ⟨rfl, rfl, rfl⟩
  | lo i | mid i | hi i | ext i => exact ⟨_, rfl, setReg_sameHost s i _⟩
  | scl | status | result | faultcmd => exact ⟨_, rfl, rfl, rfl, rfl⟩
  | cmd =>
    rw [writeMap, executeCommand]
    split
    · exact exec_sameHost _ s
    · exact ⟨_, rfl, rfl, rfl, rfl⟩

/-- No event stops the machine, and what it does to the LKU leaves the host's side. -/
theorem perform_sameHost (e : HostEvent) (s : State) : ∃ t, perform e s = .next t ∧ SameHost s t := by
  cases e with
  | read addr n => exact ⟨s, rfl, .refl s⟩
  | write addr data =>
    rw [perform]
    split
    · split
      · exact ⟨s, rfl, .refl s⟩
      · exact writeMap_sameHost _ _ s
    · exact ⟨s, rfl, .refl s⟩
  | reset => exact ⟨_, rfl, (applyReset_spec s).2⟩

/-- A step with an event queued answers a state with the event gone and its answer recorded. -/
theorem step_host {s : State} {e : HostEvent} {rest : List HostEvent} (h : s.pending = e :: rest) :
    ∃ t, step s = .next t ∧ t.baseWord = s.baseWord ∧ t.pending = rest ∧ t.responses = s.responses ++ respond e s := by
  obtain ⟨t, ht, hhost⟩ := perform_sameHost e (s.taken rest (respond e s))
  exact ⟨t, (step_of_pending h).trans ht, hhost⟩

/-- Every transaction has one answer, RESET has none. -/
theorem respond_length (e : HostEvent) (s : State) : (respond e s).length = if e = .reset then 0 else 1 := by
  cases e with
  | read | write =>
    rw [respond, if_neg (by simp)]
    split <;> rfl
  | reset => rfl

/-- Settles O7. -/
theorem everyStepAnswersANextState : Obligations.EveryStepAnswersANextState := by
  unfold Obligations.EveryStepAnswersANextState
  intro s
  cases h : s.pending with
  | nil => exact ⟨s, [], step_of_idle h, rfl, h, by simp, by simp⟩
  | cons e rest =>
    obtain ⟨t, hstep, hbase, hpending, hresponses⟩ := step_host h
    refine ⟨t, respond e s, hstep, hbase, hpending, hresponses, ?_⟩
    rw [respond_length]
    split <;> decide

/-! ### Runs -/

/-- One step at the front of a run. -/
theorem run_succ {s t : State} (h : step s = .next t) (k : Nat) :
    Host.Core.run core (k + 1) s = Host.Core.run core k t := by
  have hcore : core.step s = .next t := h
  simp only [Host.Core.run, hcore]

/-- Settles O8, by induction on the queue: `step_host` takes one event and records its answer. -/
theorem runExhaustsTheHostsEvents : Obligations.RunExhaustsTheHostsEvents := by
  unfold Obligations.RunExhaustsTheHostsEvents
  intro s
  generalize hqueue : s.pending = queue
  induction queue generalizing s with
  | nil => exact ⟨s, rfl, hqueue, by simp, step_of_idle hqueue⟩
  | cons e rest ih =>
    obtain ⟨t, hstep, -, hpending, hresponses⟩ := step_host hqueue
    obtain ⟨u, hrun, hdone, hcount, hidle⟩ := ih t hpending
    refine ⟨u, (run_succ hstep rest.length).trans hrun, hdone, ?_, hidle⟩
    rw [hcount, hresponses, List.length_append, respond_length, List.countP_cons]
    by_cases hreset : e = .reset
    · simp [hreset]
    · simp [hreset]
      omega

/-- Settles O18, by induction on the length of the run: a faulted LKU keeps its words in every step that is not RESET. -/
theorem faultedUnitIsFrozenAlongEveryRun : Obligations.FaultedUnitIsFrozenAlongEveryRun := by
  unfold Obligations.FaultedUnitIsFrozenAlongEveryRun
  intro k
  induction k with
  | zero =>
    rintro s t - - ⟨⟩
    exact ⟨fun _ => rfl, rfl, rfl, rfl, rfl⟩
  | succ k ih =>
    intro s u hfault hqueue hrun
    have hhead : ∀ rest, s.pending ≠ .reset :: rest := fun rest h => hqueue .reset (by simp [h]) rfl
    obtain ⟨t, hstep, hreg, hscl, hstatus, hresult, hfaultcmd⟩ := step_sameUnit_of_faulted hfault hhead
    obtain ⟨t', -, hstep', -, hpending, -⟩ := everyStepAnswersANextState s
    obtain ⟨⟩ := hstep'.symm.trans hstep
    rw [run_succ hstep] at hrun
    have hrest : ∀ e ∈ t.pending, e ≠ .reset := fun e he => hqueue e (List.mem_of_mem_tail (hpending ▸ he))
    obtain ⟨kreg, kscl, kstatus, kresult, kfaultcmd⟩ := ih t u (hstatus ▸ hfault) hrest hrun
    exact ⟨fun r => (kreg r).trans (hreg r), kscl.trans hscl, kstatus.trans hstatus, kresult.trans hresult,
      kfaultcmd.trans hfaultcmd⟩

/-! ### Which accesses the bus refuses (20_memory.md R54, R55) -/

/-- The table of R51 has a word at every multiple of 4 up to 0x60. -/
theorem mapRegAt_isSome {off : Nat} (h4 : off % 4 = 0) (hmax : off ≤ 0x60) : ∃ m, mapRegAt off = some m := by
  obtain ⟨k, rfl⟩ := Nat.dvd_of_mod_eq_zero h4
  have hk : k ≤ 24 := by omega
  interval_cases k <;> exact ⟨_, rfl⟩

theorem mapOffset_le (m : MapReg) : mapOffset m ≤ 0x60 := by
  cases m with
  | flags i | lo i | mid i | hi i | ext i => cases i <;> decide
  | scl | cmd | status | result | faultcmd => decide

theorem mapOffset_mod_four (m : MapReg) : mapOffset m % 4 = 0 := by
  cases m with
  | flags i | lo i | mid i | hi i | ext i => cases i <;> decide
  | scl | cmd | status | result | faultcmd => decide

theorem mapOffset_injective : Function.Injective mapOffset := by
  intro m m' h
  have hsome := mapRegAt_mapOffset m
  rw [h, mapRegAt_mapOffset] at hsome
  exact (Option.some.inj hsome).symm

theorem mapOffset_eq_iff (s : State) (m m' : MapReg) : s.base + mapOffset m = s.base + mapOffset m' ↔ m = m' :=
  Nat.add_left_cancel_iff.trans mapOffset_injective.eq_iff

/-- An access names no word of the map exactly when its width, its alignment or its address is wrong (R54). -/
theorem locate_eq_none_iff (s : State) (addr n : Nat) :
    s.locate addr n = none ↔ n ≠ 4 ∨ addr % 4 ≠ 0 ∨ addr < s.base ∨ s.base + 0x60 < addr := by
  constructor
  · intro h
    by_contra hgood
    push Not at hgood
    obtain ⟨hn, h4, hlow, hhigh⟩ := hgood
    have hoff : (addr - s.base) % 4 = 0 := by
      simp only [State.base] at hlow ⊢
      omega
    obtain ⟨m, hm⟩ := mapRegAt_isSome hoff (by omega)
    rw [State.locate, if_pos ⟨hn, h4, hlow⟩, hm] at h
    cases h
  · intro h
    cases hloc : s.locate addr n with
    | none => rfl
    | some m =>
      obtain ⟨rfl, rfl⟩ := locate_eq_some hloc
      have hle := mapOffset_le m
      have hmod := mapOffset_mod_four m
      simp only [State.base] at h
      omega

/-- A read is refused exactly when it finds no content: no word is named, or CMD (R51, R54). -/
theorem refused_read_iff (s : State) (a n addr : Nat) :
    Refused s (.read a n) addr ↔ addr = a ∧ (s.locate a n).bind s.readMap = none := by
  have hrule : Refused s (.read a n) addr ↔ addr = a ∧ (s.locate a n = none ∨ a = s.base + 0x54) := by
    simp only [Refused, locate_eq_none_iff, or_assoc]
  refine hrule.trans (and_congr_right fun _ => ?_)
  cases hloc : s.locate a n with
  | none => simp
  | some m =>
    obtain ⟨-, rfl⟩ := locate_eq_some hloc
    have hcmd : s.base + mapOffset m = s.base + 0x54 ↔ m = .cmd := mapOffset_eq_iff s m .cmd
    have hnone : s.readMap m = none ↔ m = .cmd := by cases m <;> simp [State.readMap]
    simp only [hcmd, Option.bind_some, hnone, reduceCtorEq, false_or]

/-- A write is refused exactly when it has no target: no word is named, or a read-only one (R54, R55). -/
theorem refused_write_iff (s : State) (a : Nat) (data : List Byte) (addr : Nat) :
    Refused s (.write a data) addr ↔ addr = a ∧ s.writeTarget a data.length = none := by
  have hrule : Refused s (.write a data) addr ↔ addr = a ∧
      (s.locate a data.length = none ∨ a = s.base + 0x58 ∨ a = s.base + 0x5C ∨ a = s.base + 0x60) := by
    simp only [Refused, locate_eq_none_iff, or_assoc]
  refine hrule.trans (and_congr_right fun _ => ?_)
  rw [State.writeTarget]
  cases hloc : s.locate a data.length with
  | none => simp
  | some m =>
    obtain ⟨-, rfl⟩ := locate_eq_some hloc
    have hstatus : s.base + mapOffset m = s.base + 0x58 ↔ m = .status := mapOffset_eq_iff s m .status
    have hresult : s.base + mapOffset m = s.base + 0x5C ↔ m = .result := mapOffset_eq_iff s m .result
    have hfaultcmd : s.base + mapOffset m = s.base + 0x60 ↔ m = .faultcmd := mapOffset_eq_iff s m .faultcmd
    have hnone : (if m.writable then some m else none) = none ↔ m = .status ∨ m = .result ∨ m = .faultcmd := by
      cases m <;> simp [MapReg.writable]
    simp only [hstatus, hresult, hfaultcmd, hnone, reduceCtorEq, false_or]

/-- Where a read or a write goes depends on `BASE` alone, so taking the event off the queue does not matter. -/
theorem State.taken_writeTarget (s : State) (rest : List HostEvent) (a : List Response) (addr n : Nat) :
    (s.taken rest a).writeTarget addr n = s.writeTarget addr n := rfl

/-- A step on a refused access records the refusal and does nothing else (R176, R177). -/
theorem step_of_refused {s : State} {e : HostEvent} {rest : List HostEvent} {addr : Nat} (h : s.pending = e :: rest)
    (href : Refused s e addr) : step s = .next (s.taken rest [.busError addr]) := by
  rw [step_of_pending h]
  cases e with
  | read a n =>
    obtain ⟨rfl, hnone⟩ := (refused_read_iff s a n addr).1 href
    rw [perform, respond, hnone]
  | write a data =>
    obtain ⟨rfl, hnone⟩ := (refused_write_iff s a data addr).1 href
    rw [perform, State.taken_writeTarget, respond, hnone]
  | reset => exact href.elim

/-- Settles O9. -/
theorem refusedAccessChangesNothing : Obligations.RefusedAccessChangesNothing := by
  unfold Obligations.RefusedAccessChangesNothing
  intro s e rest addr h href
  exact step_of_refused h href

/-- A write that is not refused has a target and is answered by acceptance. -/
theorem accepted_write {s : State} {a : Nat} {data : List Byte} (h : ∀ addr, ¬ Refused s (.write a data) addr) :
    ∃ m, s.writeTarget a data.length = some m ∧ respond (.write a data) s = [.written] := by
  cases htarget : s.writeTarget a data.length with
  | none => exact absurd ((refused_write_iff s a data a).2 ⟨rfl, htarget⟩) (h a)
  | some m => exact ⟨m, rfl, by rw [respond, htarget]⟩

/-- A read that is not refused is answered by the four bytes of a word. -/
theorem accepted_read {s : State} {a n : Nat} (h : ∀ addr, ¬ Refused s (.read a n) addr) :
    ∃ w, respond (.read a n) s = [.data (bytesOfWord w)] := by
  cases hword : (s.locate a n).bind s.readMap with
  | none => exact absurd ((refused_read_iff s a n a).2 ⟨rfl, hword⟩) (h a)
  | some w => exact ⟨w, by rw [respond, hword]⟩

/-- Settles O10. -/
theorem acceptedAccessIsNeverABusError : Obligations.AcceptedAccessIsNeverABusError := by
  unfold Obligations.AcceptedAccessIsNeverABusError
  intro s e rest h haccepted
  obtain ⟨t, hstep, -, -, hresponses⟩ := step_host h
  refine ⟨t, hstep, ?_⟩
  cases e with
  | read a n =>
    obtain ⟨w, hw⟩ := accepted_read haccepted
    exact ⟨_, _, _, _, hresponses.trans (by rw [hw]; rfl)⟩
  | write a data =>
    obtain ⟨-, -, hwritten⟩ := accepted_write haccepted
    rwa [hwritten] at hresponses
  | reset => simpa [respond] using hresponses

/-! ### Reads (R51, R52, R61) -/

/-- A read at the offset of a word is answered by the word's bytes and does nothing else. -/
theorem step_of_readable {s : State} {m : MapReg} {w : Word} {rest : List HostEvent} (hw : s.readMap m = some w)
    (h : s.pending = .read (s.base + mapOffset m) 4 :: rest) :
    step s = .next (s.taken rest [.data (bytesOfWord w)]) := by
  have hword : (s.locate (s.base + mapOffset m) 4).bind s.readMap = some w := by
    rw [locate_mapOffset, Option.bind_some, hw]
  rw [step_of_read h, respond, hword]

/-- Settles O11. -/
theorem readReturnsTheWordLittleEndian : Obligations.ReadReturnsTheWordLittleEndian := by
  unfold Obligations.ReadReturnsTheWordLittleEndian
  intro s m w rest hw h
  exact step_of_readable hw h

/-! ### Writes (R56, R57, R64) -/

/-- Settles O13: `step_of_write` at the offset of FLAGS, then the check of R56. -/
theorem flagsWriteIsChecked : Obligations.FlagsWriteIsChecked := by
  unfold Obligations.FlagsWriteIsChecked
  intro s i v rest h hfault
  have hstep : step s = .next (writeFlags i v (s.taken rest [.written])) := step_of_write (m := .flags i) h hfault rfl
  refine ⟨fun hbad => ?_, fun h24 h0 hscale => ?_⟩
  · have hillegal : ¬ FlagsLegal v := by
      rintro ⟨h24, h0, hscale⟩
      obtain hne | hne | hgt := hbad
      · exact hne h24
      · exact hne h0
      · exact Nat.not_le_of_lt hgt hscale
    rw [writeFlags_of_not_legal hillegal] at hstep
    exact ⟨_, hstep, errorInvalidArgument_errorOutcome _⟩
  · rw [writeFlags_of_legal ⟨h24, h0, hscale⟩] at hstep
    refine ⟨_, hstep, ?_, fun r hr => ?_, ?_, ?_, ?_, ?_⟩
    · rw [State.reg_setReg_same, State.taken_reg]
    · rw [State.reg_setReg_ne _ _ hr, State.taken_reg]
    all_goals simp

/-- Settles O14: a faulted LKU does nothing on an event but RESET, and answers as ever. -/
theorem faultedUnitDiscardsWrites : Obligations.FaultedUnitDiscardsWrites := by
  unfold Obligations.FaultedUnitDiscardsWrites
  intro s e rest hfault h
  refine ⟨?_, ?_, fun addr href => step_of_refused h href⟩
  · rintro addr data rfl haccepted
    obtain ⟨-, -, hwritten⟩ := accepted_write haccepted
    have hfrozen : perform (.write addr data) (s.taken rest [.written]) = .next (s.taken rest [.written]) :=
      perform_of_faulted hfault (by simp)
    rw [step_of_pending h, hwritten, hfrozen]
    rfl
  · rintro m w rfl hw
    exact step_of_readable hw h

/-! ### A CMD write (30_encoding.md R70, R75) -/

/-- A CMD write to an LKU that is not faulted executes the word it carries. -/
theorem step_of_commandWrite {s : State} {w : Word} {rest : List HostEvent}
    (h : s.pending = .write (s.base + 0x54) (bytesOfWord w) :: rest) (hfault : s.status.getLsbD 31 = false) :
    step s = executeCommand w (s.taken rest [.written]) :=
  step_of_write (m := .cmd) h hfault rfl

theorem executeCommand_of_ok {w : Word} {i : Instr} (h : decode w = .ok i) (s : State) :
    executeCommand w s = exec i s := by
  rw [executeCommand, h]

theorem executeCommand_of_refused {w : Word} (h : ∀ i, decode w ≠ .ok i) (s : State) :
    executeCommand w s = .next (raiseFault .illegalCommand w s) := by
  cases hw : decode w with
  | ok i => exact absurd hw (h i)
  | error e => rw [executeCommand, hw]

/-- Settles O5. -/
theorem stepRunsTheDecodedCommand : Obligations.StepRunsTheDecodedCommand := by
  unfold Obligations.StepRunsTheDecodedCommand
  intro s w i rest h hfault hdecode
  exact (step_of_commandWrite h hfault).trans (executeCommand_of_ok hdecode _)

/-- Settles O6: the illegal words are those the decoder refuses (`illegalWord_iff`). -/
theorem illegalWordFaultsAndEveryOtherRuns : Obligations.IllegalWordFaultsAndEveryOtherRuns := by
  unfold Obligations.IllegalWordFaultsAndEveryOtherRuns
  intro s w rest h hfault
  have hstep := step_of_commandWrite h hfault
  refine ⟨fun hillegal => ?_, fun hlegal => ?_⟩
  · rw [executeCommand_of_refused ((illegalWord_iff w).1 hillegal)] at hstep
    exact ⟨_, hstep, raiseFault_faultEntered .illegalCommand w _⟩
  · obtain ⟨i, hi⟩ : ∃ i, decode w = .ok i := by simpa [illegalWord_iff] using hlegal
    exact ⟨i, hi, hstep.trans (executeCommand_of_ok hi _)⟩

/-! ### The wire image (20_memory.md R53, R65) -/

/-- A plain write that is performed: the word is stored, every other word, `BASE` and the other answers stay. -/
theorem step_of_plainWrite {s : State} {m : MapReg} {v : Word} {rest : List HostEvent}
    (h : s.pending = .write (s.base + mapOffset m) (bytesOfWord v) :: rest) (hfault : s.status.getLsbD 31 = false)
    (hw : m.writable = true) (hcmd : m ≠ .cmd) (hflags : ∀ i, m = .flags i → FlagsLegal v) :
    ∃ t, step s = .next t ∧ StoresOnly m v s t ∧ t.base = s.base ∧ t.status = s.status ∧ t.pending = rest ∧
      t.responses = s.responses ++ [.written] := by
  obtain ⟨t, ht, hstored, hothers⟩ := writeMap_storesOnly (s.taken rest [.written]) hw hcmd hflags
  obtain ⟨t', ht', hbase, hpending, hresponses⟩ := writeMap_sameHost m v (s.taken rest [.written])
  obtain ⟨⟩ := ht'.symm.trans ht
  have hstatus : t.readMap .status = s.readMap .status := hothers .status (by rintro rfl; cases hw)
  exact ⟨t, (step_of_write h hfault hw).trans ht, ⟨hstored, fun m' hne => (hothers m' hne).trans (by simp)⟩,
    congrArg (4 * ·) hbase, Option.some.inj hstatus, hpending, hresponses⟩

/-- Two runs one after the other. -/
theorem run_add {j : Nat} {s t : State} (h : Host.Core.run core j s = .next t) (k : Nat) :
    Host.Core.run core (j + k) s = Host.Core.run core k t := by
  induction j generalizing s with
  | zero =>
    obtain ⟨⟩ := h
    rw [Nat.zero_add]
  | succ j ih =>
    obtain ⟨u, -, hstep, -⟩ := everyStepAnswersANextState s
    rw [run_succ hstep] at h
    rw [Nat.succ_add, run_succ hstep, ih h]

/-- A write that is performed as a plain store: not of CMD or a read-only word, and legal if of FLAGS. -/
def PlainWrite (p : MapReg × Word) : Prop :=
  p.1.writable = true ∧ p.1 ≠ .cmd ∧ ∀ i, p.1 = .flags i → FlagsLegal p.2

/-- A run of plain writes to different words leaves every one of them stored. -/
theorem run_of_plainWrites (ps : List (MapReg × Word)) {s : State} {rest : List HostEvent}
    (hplain : ∀ p ∈ ps, PlainWrite p) (hnodup : (ps.map Prod.fst).Nodup) (hfault : s.status.getLsbD 31 = false)
    (h : s.pending = ps.map (fun p => .write (s.base + mapOffset p.1) (bytesOfWord p.2)) ++ rest) :
    ∃ t : State, Host.Core.run core ps.length s = .next t ∧ t.base = s.base ∧ t.pending = rest ∧
      t.responses = s.responses ++ ps.map (fun _ => .written) ∧ (∀ p ∈ ps, t.readMap p.1 = some p.2) ∧
      ∀ m, m ∉ ps.map Prod.fst → t.readMap m = s.readMap m := by
  induction ps generalizing s with
  | nil => exact ⟨s, rfl, rfl, h, by simp, by simp, fun _ _ => rfl⟩
  | cons p ps ih =>
    obtain ⟨m, v⟩ := p
    obtain ⟨hw, hcmd, hflags⟩ := hplain (m, v) (by simp)
    obtain ⟨hm, hnodup⟩ := List.nodup_cons.mp hnodup
    obtain ⟨t, hstep, ⟨hstored, hothers⟩, hbase, hstatus, hpending, hresponses⟩ :=
      step_of_plainWrite h hfault hw hcmd hflags
    obtain ⟨u, hrun, kbase, kpending, kresponses, kstored, kothers⟩ :=
      ih (fun q hq => hplain q (List.mem_cons_of_mem _ hq)) hnodup (hstatus ▸ hfault) (hbase ▸ hpending)
    refine ⟨u, (run_succ hstep ps.length).trans hrun, kbase.trans hbase, kpending, ?_, ?_, fun m' hm' => ?_⟩
    · rw [kresponses, hresponses, List.append_assoc]
      rfl
    · intro q hq
      obtain rfl | hq := List.mem_cons.mp hq
      · exact (kothers m hm).trans hstored
      · exact kstored q hq
    · obtain ⟨hne, hrest⟩ : m' ≠ m ∧ m' ∉ ps.map Prod.fst := by simpa using hm'
      exact (kothers m' hrest).trans (hothers m' hne)

/-- A run of reads answers each with its word's bytes. -/
theorem run_of_reads (ps : List (MapReg × Word)) {s : State} {rest : List HostEvent}
    (hwords : ∀ p ∈ ps, s.readMap p.1 = some p.2)
    (h : s.pending = ps.map (fun p => .read (s.base + mapOffset p.1) 4) ++ rest) :
    ∃ t : State, Host.Core.run core ps.length s = .next t ∧ t.pending = rest ∧
      t.responses = s.responses ++ ps.map (fun p => .data (bytesOfWord p.2)) := by
  induction ps generalizing s with
  | nil => exact ⟨s, rfl, h, by simp⟩
  | cons p ps ih =>
    obtain ⟨m, w⟩ := p
    have hstep := step_of_readable (hwords (m, w) (by simp)) h
    have hrest (q : MapReg × Word) (hq : q ∈ ps) :
        (s.taken (ps.map (fun p => .read (s.base + mapOffset p.1) 4) ++ rest) [.data (bytesOfWord w)]).readMap q.1 =
          some q.2 := by
      rw [State.taken_readMap, hwords q (List.mem_cons_of_mem _ hq)]
    obtain ⟨t, hrun, hpending, hresponses⟩ := ih hrest rfl
    refine ⟨t, (run_succ hstep ps.length).trans hrun, hpending, ?_⟩
    rw [hresponses, State.taken_responses, List.append_assoc]
    rfl

/-- The four words of a decimal value in a register, in the order of the wire image (R53). -/
def wireWords (i : RegNum) (f l0 l1 l2 : Word) : List (MapReg × Word) :=
  [(.flags i, f), (.lo i, l0), (.mid i, l1), (.hi i, l2)]

/-- Settles O15: the four writes store the words (`run_of_plainWrites`), the four reads find them (`run_of_reads`). -/
theorem wireImageRoundTrips : Obligations.WireImageRoundTrips := by
  unfold Obligations.WireImageRoundTrips
  intro s i f l0 l1 l2 rest hfault hlegal h
  have hplain : ∀ p ∈ wireWords i f l0 l1 l2, PlainWrite p := by
    simp [wireWords, PlainWrite, MapReg.writable, hlegal]
  have hnodup : ((wireWords i f l0 l1 l2).map Prod.fst).Nodup := by simp [wireWords]
  obtain ⟨t, hwrites, hbase, hpending, hresponses, hstored, -⟩ :=
    run_of_plainWrites (wireWords i f l0 l1 l2) hplain hnodup hfault h
  rw [← hbase] at hpending
  obtain ⟨u, hreads, hdone, hanswers⟩ := run_of_reads (wireWords i f l0 l1 l2) (rest := rest) hstored hpending
  refine ⟨u, (run_add hwrites 4).trans hreads, hdone, ?_⟩
  rw [hanswers, hresponses, List.append_assoc]
  rfl

end Sys2Proof.Machine
end

section
/-! PROOFS. The invariant of the LKU (10_state.md R23, R29, R31; 60_exceptions.md R171 to R175): it holds at reset and every
step keeps it, because a completion, the error outcome, fault entry and a host write each keep it. -/

namespace Sys2Proof.Machine

/-! ### STATUS stays legal (10_state.md R29) -/

/-- What R29 asks of STATUS[10:0]. -/
def LowStatusLegal (low : BitVec 11) : Prop :=
  low.extractLsb' 6 2 = 0#2 ∧ low.extractLsb' 2 2 ≠ 3#2 ∧
    (if low.getLsbD 8 then low = 0x300#11 else low.extractLsb' 9 2 = 0#2)

/-- STATUS[10:0] of a completion: no error bit, and ORD is the code of a comparison. -/
theorem lowStatusLegal_completionBits (f : CompletionFlags) (z : Bool) : LowStatusLegal (completionBits f z) := by
  obtain ⟨c, ord, rnd, cap⟩ := f
  unfold LowStatusLegal
  cases c <;> cases ord <;> cases rnd <;> cases cap <;> cases z <;> decide

theorem lowStatusLegal_errorBits : LowStatusLegal errorBits := by
  unfold LowStatusLegal
  decide

/-- A legal STATUS with legal new low bits is legal. -/
theorem statusLegal_withLow {w : Word} {low : BitVec 11} (h : StatusLegal w) (hlow : LowStatusLegal low) :
    StatusLegal (withLow w low) := by
  obtain ⟨-, hreserved, -, -, hfault⟩ := h
  obtain ⟨hbits, hord, herr⟩ := hlow
  unfold StatusLegal
  rw [withLow_extract_within w low (k := 6) (n := 2) (by decide), withLow_extract_above w low (k := 11) (n := 17) (by decide),
    withLow_extract_within w low (k := 2) (n := 2) (by decide), withLow_getLsbD_low w low (k := 8) (by decide),
    withLow_extract_low, withLow_extract_within w low (k := 9) (n := 2) (by decide),
    withLow_getLsbD_high w low (k := 31) (by decide), withLow_extract_above w low (k := 28) (n := 3) (by decide)]
  exact ⟨hbits, hreserved, hord, herr, hfault⟩

theorem FaultCause.code_toNat_bounds (c : FaultCause) : 1 ≤ c.code.toNat ∧ c.code.toNat ≤ 3 := by cases c <;> decide

/-- Fault entry sets FAULT and a cause from 1 to 3 and keeps the bits below. -/
theorem statusLegal_withFault {w : Word} (h : StatusLegal w) (c : FaultCause) : StatusLegal (withFault w c) := by
  obtain ⟨hbits, hreserved, hord, herr, -⟩ := h
  unfold StatusLegal
  rw [withFault_extract_within w c (by decide), withFault_extract_within w c (by decide),
    withFault_extract_within w c (by decide), withFault_extract_within w c (by decide),
    withFault_extract_within w c (by decide), withFault_getLsbD_low w c (by decide), withFault_fault, withFault_fcause,
    if_pos rfl]
  exact ⟨hbits, hreserved, hord, herr, c.code_toNat_bounds⟩

/-! ### The fault record stays true (10_state.md R31) -/

/-- FAULT is the top bit of STATUS[31:28], FCAUSE its other three. -/
theorem FaultRecordKept.status_eq {s t : State} (h : FaultRecordKept s t) :
    t.status.getLsbD 31 = s.status.getLsbD 31 ∧ t.status.extractLsb' 28 3 = s.status.extractLsb' 28 3 := by
  have hbit (k : Nat) (hk : k < 4) : t.status.getLsbD (28 + k) = s.status.getLsbD (28 + k) := by
    simpa [hk] using congrArg (fun v => v.getLsbD k) h.2
  refine ⟨hbit 3 (by decide), ?_⟩
  ext i hi
  rw [BitVec.getElem_extractLsb', BitVec.getElem_extractLsb', hbit i (by omega)]

/-- The record stays true while STATUS[31:28], FAULTCMD and SCL stay. -/
theorem FaultRecorded.of_kept {s t : State} (h : FaultRecorded s) (hkept : FaultRecordKept s t) (hscl : t.scl = s.scl) :
    FaultRecorded t := by
  obtain ⟨hfault, hcause⟩ := hkept.status_eq
  unfold FaultRecorded at h ⊢
  rwa [hfault, hcause, hkept.1, hscl]

/-- What the record says of a fault with its cause and word (60_exceptions.md R171). -/
def CauseFits (c : FaultCause) (w : Word) (s : State) : Prop :=
  match c with
  | .illegalCommand => ∃ e, decode w = .error e
  | .lengthMismatch => ∃ rd rs, decode w = .ok (.add rd rs .three .four) ∨ decode w = .ok (.sub rd rs .three .four)
  | .divideByZeroScalar => s.scl = 0#32 ∧ ∃ rd dl, decode w = .ok (.divs rd dl)

/-- Fault entry makes a true record of a cause that fits. -/
theorem faultRecorded_raiseFault {c : FaultCause} {w : Word} {s : State} (h : CauseFits c w s) :
    FaultRecorded (raiseFault c w s) := by
  unfold FaultRecorded
  rw [raiseFault_status, withFault_fault, withFault_fcause, if_pos rfl, raiseFault_faultcmd, raiseFault_scl]
  cases c with
  | illegalCommand => exact ⟨fun _ => h, fun h2 => absurd h2 (by decide), fun h3 => absurd h3 (by decide)⟩
  | lengthMismatch => exact ⟨fun h1 => absurd h1 (by decide), fun _ => h, fun h3 => absurd h3 (by decide)⟩
  | divideByZeroScalar => exact ⟨fun h1 => absurd h1 (by decide), fun h2 => absurd h2 (by decide), fun _ => h⟩

/-- The fault of a decoded command fits its word: the decoder has made the field checks, so only the pair (3, 4) and the zero
divisor are left. -/
theorem causeFits_of_decode {w : Word} {i : Instr} {s : State} {c : FaultCause} (hdecode : decode w = .ok i)
    (hfault : faultOf i s = some c) : CauseFits c w s := by
  obtain ⟨hwf, -⟩ := acceptedWordEncodesBack w i hdecode
  cases i with
  | add rd rs dl sl =>
    obtain ⟨⟨rfl, rfl⟩, ⟨⟩⟩ := Option.ite_none_right_eq_some.mp hfault
    exact ⟨rd, rs, .inl hdecode⟩
  | sub rd rs dl sl =>
    obtain ⟨⟨rfl, rfl⟩, ⟨⟩⟩ := Option.ite_none_right_eq_some.mp hfault
    exact ⟨rd, rs, .inr hdecode⟩
  | divs rd dl =>
    obtain ⟨hscl, ⟨⟩⟩ := Option.ite_none_right_eq_some.mp hfault
    exact ⟨hscl, rd, dl, hdecode⟩
  | mulp rd dl imm | divp rd dl imm | shln rd dl imm =>
    obtain ⟨habove, -⟩ := Option.ite_none_right_eq_some.mp hfault
    exact absurd (of_decide_eq_true hwf) (Nat.not_le_of_lt habove)
  | adds | inc | muls | shl1 | cmp | tstz | mov | setscale | neg | rescale | align | round => cases hfault

/-! ### What keeps the invariant -/

/-- The invariant speaks of the 24 words alone. -/
theorem UnitInv.congr {s t : State} (h : UnitInv s) (hsame : SameUnit s t) : UnitInv t := by
  obtain ⟨hreg, hscl, hstatus, hresult, hfaultcmd⟩ := hsame
  obtain ⟨hflags, hlegal, hrecord, herr⟩ := h
  refine ⟨fun r => hreg r ▸ hflags r, hstatus ▸ hlegal, ?_, ?_⟩
  · exact hrecord.of_kept ⟨hfaultcmd, by rw [hstatus]⟩ hscl
  · rw [hstatus, hresult]
    exact herr

theorem UnitInv.errorInvalidArgument {s : State} (h : UnitInv s) : UnitInv (errorInvalidArgument s) := by
  obtain ⟨hflags, hlegal, hrecord, -⟩ := h
  refine ⟨fun r => ?_, statusLegal_withLow hlegal lowStatusLegal_errorBits,
    hrecord.of_kept (errorInvalidArgument_faultRecordKept s) rfl, fun _ => rfl⟩
  rw [errorInvalidArgument_reg]
  exact hflags r

/-- A completion clears ERR, so RESULT is free (10_state.md R33). -/
theorem UnitInv.complete {s : State} (h : UnitInv s) (rd : RegNum) (n : OpLen) (v : Nat) (f : CompletionFlags) :
    UnitInv (complete rd n v f s) := by
  obtain ⟨hflags, hlegal, hrecord, -⟩ := h
  refine ⟨fun r => ?_, statusLegal_withLow hlegal (lowStatusLegal_completionBits f _),
    hrecord.of_kept ((FaultRecordKept.refl s).trans_complete rd n v f) rfl, fun herr => ?_⟩
  · rw [complete_reg]
    exact hflags r
  · obtain ⟨-, -, -, -, -, hzero⟩ := completionBits_fields f (s.isAllZero rd n)
    have hbit : (completionBits f (s.isAllZero rd n)).getLsbD 8 = false := by
      simpa using congrArg (fun v => v.getLsbD 2) hzero
    rw [complete_status, withLow_getLsbD_low _ _ (by decide), hbit] at herr
    cases herr

theorem UnitInv.raiseFault {s : State} (h : UnitInv s) {c : FaultCause} {w : Word} (hfits : CauseFits c w s) :
    UnitInv (raiseFault c w s) := by
  obtain ⟨hflags, hlegal, -, herr⟩ := h
  refine ⟨fun r => ?_, statusLegal_withFault hlegal c, faultRecorded_raiseFault hfits, ?_⟩
  · rw [raiseFault_reg]
    exact hflags r
  · rw [raiseFault_status, withFault_getLsbD_low _ _ (by decide), raiseFault_result]
    exact herr

/-- The register writes of a command keep the invariant: SCL, STATUS, RESULT and FAULTCMD are not among them. -/
theorem UnitInv.commandBody {i : Instr} {s b : State} (h : UnitInv s) (hbody : CommandBody i s b) : UnitInv b := by
  obtain ⟨hwrites, hlegalKept⟩ := hbody
  obtain ⟨hflags, hlegal, hrecord, herr⟩ := h
  have hscl : b.scl = s.scl := Option.some.inj (hwrites.readMap_of_not_regWord (m := .scl) rfl)
  have hstatus : b.status = s.status := Option.some.inj (hwrites.readMap_of_not_regWord (m := .status) rfl)
  have hresult : b.result = s.result := Option.some.inj (hwrites.readMap_of_not_regWord (m := .result) rfl)
  have hfaultcmd : b.faultcmd = s.faultcmd := Option.some.inj (hwrites.readMap_of_not_regWord (m := .faultcmd) rfl)
  refine ⟨hlegalKept hflags, hstatus ▸ hlegal, hrecord.of_kept ⟨hfaultcmd, by rw [hstatus]⟩ hscl, ?_⟩
  rw [hstatus, hresult]
  exact herr

/-- A decoded command keeps the invariant. -/
theorem UnitInv.exec {w : Word} {i : Instr} {s t : State} (h : UnitInv s) (hdecode : decode w = .ok i)
    (hexec : exec i s = .next t) : UnitInv t := by
  obtain ⟨hwf, hword⟩ := acceptedWordEncodesBack w i hdecode
  obtain ⟨c, hfault, hraise⟩ | ⟨-, herr | ⟨rd, n, v, f, b, hdone, hbody⟩⟩ := exec_cases i s
  · obtain ⟨⟩ := hraise.symm.trans hexec
    exact h.raiseFault (hword ▸ causeFits_of_decode hdecode hfault)
  · obtain ⟨⟩ := herr.symm.trans hexec
    exact h.errorInvalidArgument
  · obtain ⟨⟩ := hdone.symm.trans hexec
    exact (h.commandBody hbody).complete rd n v f

theorem UnitInv.executeCommand {w : Word} {s t : State} (h : UnitInv s) (hexec : executeCommand w s = .next t) :
    UnitInv t := by
  cases hdecode : decode w with
  | ok i => exact h.exec hdecode ((executeCommand_of_ok hdecode s).symm.trans hexec)
  | error e =>
    obtain ⟨⟩ := (executeCommand_of_refused (fun i => by simp [hdecode]) s).symm.trans hexec
    exact h.raiseFault ⟨e, hdecode⟩

/-- A stored word keeps the invariant of an LKU without a fault, a FLAGS word being legal. -/
theorem UnitInv.stores {s t : State} {m : MapReg} {v : Word} (h : UnitInv s) (hfault : s.status.getLsbD 31 = false)
    (hstores : StoresOnly m v s t) (hw : m.writable = true) (hflags : ∀ i, m = .flags i → FlagsLegal v) :
    UnitInv t := by
  obtain ⟨hstored, hothers⟩ := hstores
  obtain ⟨hregs, hlegal, hrecord, herr⟩ := h
  have hstatus : t.status = s.status := Option.some.inj (hothers .status (by rintro rfl; cases hw))
  have hresult : t.result = s.result := Option.some.inj (hothers .result (by rintro rfl; cases hw))
  have hfaultcmd : t.faultcmd = s.faultcmd := Option.some.inj (hothers .faultcmd (by rintro rfl; cases hw))
  refine ⟨fun r => ?_, hstatus ▸ hlegal, ?_, ?_⟩
  · by_cases hr : m = .flags r
    · have hnew : (t.reg r).flags = v := Option.some.inj ((congrArg t.readMap hr).symm.trans hstored)
      exact hnew ▸ hflags r hr
    · have hold : (t.reg r).flags = (s.reg r).flags := Option.some.inj (hothers (.flags r) (Ne.symm hr))
      exact hold ▸ hregs r
  · simp only [FaultRecorded, hstatus, hfault, Bool.false_eq_true, if_false] at hrecord ⊢
    exact hfaultcmd.trans hrecord
  · rw [hstatus, hresult]
    exact herr

/-- An accepted write to an LKU without a fault keeps the invariant. -/
theorem UnitInv.writeMap {s t : State} {m : MapReg} {v : Word} (h : UnitInv s) (hfault : s.status.getLsbD 31 = false)
    (hw : m.writable = true) (hwrite : writeMap m v s = .next t) : UnitInv t := by
  by_cases hcmd : m = .cmd
  · subst hcmd
    exact h.executeCommand hwrite
  · by_cases hflags : ∀ i, m = .flags i → FlagsLegal v
    · obtain ⟨t', hstep, hstores⟩ := writeMap_storesOnly s hw hcmd hflags
      obtain ⟨⟩ := hstep.symm.trans hwrite
      exact h.stores hfault hstores hw hflags
    · push Not at hflags
      obtain ⟨i, rfl, hillegal⟩ := hflags
      rw [Machine.writeMap, writeFlags_of_not_legal hillegal] at hwrite
      obtain ⟨⟩ := hwrite
      exact h.errorInvalidArgument

/-! ### The obligations -/

/-- Settles O20. -/
theorem unitInvariantHoldsAtReset : Obligations.UnitInvariantHoldsAtReset := by
  unfold Obligations.UnitInvariantHoldsAtReset
  refine ⟨fun r => ?_, ?_, ?_, fun _ => rfl⟩
  · rw [State.reset_reg]
    unfold FlagsLegal
    decide
  · unfold StatusLegal
    decide
  · rw [FaultRecorded, if_neg (by decide)]
    rfl

/-- The target of a write is not read-only (20_memory.md R55). -/
theorem writable_of_writeTarget {s : State} {addr n : Nat} {m : MapReg} (h : s.writeTarget addr n = some m) :
    m.writable = true := by
  unfold State.writeTarget at h
  split at h
  · split_ifs at h with hw
    obtain ⟨⟩ := h
    exact hw
  · cases h

/-- An event keeps the invariant. -/
theorem UnitInv.perform {s t : State} (h : UnitInv s) (e : HostEvent) (hperform : perform e s = .next t) : UnitInv t := by
  cases e with
  | read addr n =>
    obtain ⟨⟩ := hperform
    exact h
  | reset =>
    obtain ⟨⟩ := hperform
    exact unitInvariantHoldsAtReset.congr (applyReset_spec s).1
  | write addr data =>
    cases hfault : s.faulted with
    | true =>
      obtain ⟨⟩ := (perform_of_faulted hfault (by simp)).symm.trans hperform
      exact h
    | false =>
      cases htarget : s.writeTarget addr data.length with
      | none =>
        obtain rfl : s = t := by simpa [Machine.perform, htarget] using hperform
        exact h
      | some m =>
        have hwrite : Machine.writeMap m (dataWord data) s = .next t := by
          simpa [Machine.perform, htarget, hfault] using hperform
        exact h.writeMap hfault (writable_of_writeTarget htarget) hwrite

/-- Settles O21: a step idles or performs the next event in the same 24 words. -/
theorem unitInvariantIsKeptByEveryStep : Obligations.UnitInvariantIsKeptByEveryStep := by
  unfold Obligations.UnitInvariantIsKeptByEveryStep
  intro s t h hstep
  cases hpending : s.pending with
  | nil =>
    obtain ⟨⟩ := (step_of_idle hpending).symm.trans hstep
    exact h
  | cons e rest =>
    have htaken : UnitInv (s.taken rest (respond e s)) := h.congr (State.taken_sameUnit s rest _)
    exact htaken.perform e ((step_of_pending hpending).symm.trans hstep)

end Sys2Proof.Machine
end

section
/-! PROOFS. Canonical zero (10_state.md R25): the rescaler and ROUND give no zero the sign 1, NEG clears it, and the other
value commands move or keep what is there. -/

namespace Sys2Proof.Machine

/-! ### Changes that leave no negative zero -/

/-- Every register that changes from `s` to `t` has SIGN 0 if its mantissa is now zero. -/
def ChangesCanonical (s t : State) : Prop :=
  ∀ r, t.reg r = s.reg r ∨ (t.val r .three = 0 → (t.reg r).flags.getLsbD 31 = false)

theorem ChangesCanonical.of_reg_eq {s t : State} (h : ∀ r, t.reg r = s.reg r) : ChangesCanonical s t := fun r => .inl (h r)

theorem ChangesCanonical.trans {s t u : State} (h : ChangesCanonical s t) (k : ChangesCanonical t u) :
    ChangesCanonical s u := by
  intro r
  obtain hsame | hzero := k r
  · rw [State.val, hsame]
    exact h r
  · exact .inr hzero

/-- All zeros stay canonical through such changes. -/
theorem ZerosCanonical.of_changes {s t : State} (h : ZerosCanonical s) (hchanges : ChangesCanonical s t) :
    ZerosCanonical t := by
  intro r hval
  obtain hsame | hzero := hchanges r
  · rw [State.val, hsame] at hval
    rw [hsame]
    exact h r hval
  · exact hzero hval

/-- Storing a flag word whose sign is 0 beside a zero mantissa. -/
theorem setFs_changesCanonical (s : State) (i : RegNum) {sg : Bool} {sc : Nat} (hsc : sc < 256)
    (hzero : s.val i .three = 0 → sg = false) : ChangesCanonical s (s.setFs i sg sc) := by
  intro r
  by_cases hr : r = i
  · subst hr
    right
    rw [State.setFs_val, State.setFs_reg_same, (packFlags_flagWord sg hsc).1]
    exact hzero
  · exact .inl ((State.setFs_othersSame s i sg sc).1 r hr)

/-- Storing a mantissa and such a flag word. -/
theorem setVal_setFs_changesCanonical (s : State) (i : RegNum) {v : Nat} {sg : Bool} {sc : Nat} (hv : v < 2 ^ 96)
    (hsc : sc < 256) (hzero : v = 0 → sg = false) : ChangesCanonical s ((s.setVal i .three v).setFs i sg sc) := by
  intro r
  by_cases hr : r = i
  · subst hr
    right
    rw [State.setFs_val, State.val_setVal s r .three hv, State.setFs_reg_same, (packFlags_flagWord sg hsc).1]
    exact hzero
  · exact .inl ((State.setVal_setFs_othersSame s i v sg sc).1 r hr)

theorem rescaleReg_changesCanonical (i : RegNum) {ts : Nat} (hts : ts < 256) (s : State) :
    ChangesCanonical s (rescaleReg i ts s).state := by
  obtain hsame | ⟨v, sg, sc, hv, hsc, hzero, hstate⟩ := rescaleReg_state i ts s
  · rw [hsame]
    exact .of_reg_eq fun _ => rfl
  · rw [hstate]
    exact setVal_setFs_changesCanonical s i hv (by omega) hzero

theorem alignRegs_changesCanonical (low high : RegNum) (s : State) : ChangesCanonical s (alignRegs low high s).state := by
  have hraise := rescaleReg_changesCanonical low (State.scale_lt s high) s
  simp only [alignRegs]
  split
  · exact hraise.trans (rescaleReg_changesCanonical high (State.scale_lt _ low) _)
  · exact hraise

/-- A completion changes no register. -/
theorem ChangesCanonical.trans_complete {s b : State} (h : ChangesCanonical s b) (rd : RegNum) (n : OpLen) (v : Nat)
    (f : CompletionFlags) : ChangesCanonical s (complete rd n v f b) :=
  h.trans (.of_reg_eq fun r => complete_reg rd n v f b r)

/-! ### The commands -/

theorem exec_neg_changesCanonical (rd : RegNum) (s : State) : ∃ t, exec (.neg rd) s = .next t ∧ ChangesCanonical s t :=
  ⟨_, execNeg_eq rd s, (setFs_changesCanonical s rd (State.scale_lt s rd)
    (fun hzero => if_pos hzero)).trans_complete rd .three _ _⟩

theorem exec_rescale_changesCanonical (rd : RegNum) (imm : BitVec 8) (s : State) :
    ∃ t, exec (.rescale rd imm) s = .next t ∧ ChangesCanonical s t := by
  obtain habove | hle := Nat.lt_or_ge 28 imm.toNat
  · exact ⟨_, if_pos habove, .of_reg_eq fun r => errorInvalidArgument_reg s r⟩
  · exact ⟨_, if_neg (Nat.not_lt_of_le hle), (rescaleReg_changesCanonical rd imm.isLt s).trans_complete rd .three _ _⟩

theorem exec_align_changesCanonical (rd rs : RegNum) (s : State) :
    ∃ t, exec (.align rd rs) s = .next t ∧ ChangesCanonical s t := by
  refine ⟨_, rfl, ChangesCanonical.trans_complete ?_ rd .three _ _⟩
  split_ifs
  · exact .of_reg_eq fun _ => rfl
  · exact alignRegs_changesCanonical rd rs s
  · exact alignRegs_changesCanonical rs rd s

theorem exec_round_changesCanonical (rd : RegNum) (imm : BitVec 8) (strat : Strategy) (s : State) :
    ∃ t, exec (.round rd imm strat) s = .next t ∧ ChangesCanonical s t := by
  obtain hdropped | hkept := Nat.lt_or_ge imm.toNat (s.scale rd)
  · refine ⟨_, execRound_of_lt hdropped strat, ChangesCanonical.trans_complete ?_ rd .three _ _⟩
    exact setVal_setFs_changesCanonical s rd (State.roundedMantissa_lt hdropped strat) imm.isLt fun h0 => by simp [h0]
  · exact ⟨_, execRound_of_le hkept strat, (ChangesCanonical.of_reg_eq fun _ => rfl).trans_complete rd .three _ _⟩

/-- SETSCALE keeps the sign and the mantissa (40_representation.md R92). -/
theorem exec_setscale_changesCanonical (rd : RegNum) (imm : BitVec 8) {s : State} (h : ZerosCanonical s) :
    ∃ t, exec (.setscale rd imm) s = .next t ∧ ChangesCanonical s t := by
  obtain habove | hle := Nat.lt_or_ge 28 imm.toNat
  · exact ⟨_, execSetscale_of_gt habove rd s, .of_reg_eq fun r => errorInvalidArgument_reg s r⟩
  · exact ⟨_, execSetscale_of_le hle rd s,
      (setFs_changesCanonical s rd imm.isLt (fun hzero => h rd hzero)).trans_complete rd .three _ _⟩

/-- MOV copies the sign with the mantissa (R91). -/
theorem exec_mov_changesCanonical (rd rs : RegNum) (dl : OpLen) {s : State} (h : ZerosCanonical s) :
    ∃ t, exec (.mov rd rs dl) s = .next t ∧ ChangesCanonical s t := by
  refine ⟨_, rfl, ChangesCanonical.trans_complete (fun r => ?_) rd dl _ _⟩
  by_cases hr : r = rd
  · subst hr
    right
    rw [State.val, State.setFlags_setVal_reg_same]
    exact h rs
  · exact .inl (((setReg_othersSame s rd _).trans (State.setVal_othersSame _ rd dl _)).1 r hr)

/-- Settles O22: NEG by its new sign, the rescaler and ROUND by `ChangesCanonical`, which MOV and SETSCALE meet too from a
state without negative zeros. -/
theorem valueCommandsKeepZeroCanonical : Obligations.ValueCommandsKeepZeroCanonical := by
  unfold Obligations.ValueCommandsKeepZeroCanonical
  refine ⟨fun rd s t hexec hzero => ?_, fun i s t r hop hexec hchanged => ?_, fun i s t hop hexec hcanonical => ?_⟩
  · obtain ⟨⟩ := (execNeg_eq rd s).symm.trans hexec
    rw [complete_val, State.setFs_val] at hzero
    rw [complete_reg, State.setFs_reg_same, (packFlags_flagWord _ (State.scale_lt s rd)).1]
    exact if_pos hzero
  · obtain ⟨u, hstep, hchanges⟩ : ∃ u, exec i s = .next u ∧ ChangesCanonical s u := by
      cases i with
      | rescale rd imm => exact exec_rescale_changesCanonical rd imm s
      | align rd rs => exact exec_align_changesCanonical rd rs s
      | round rd imm strat => exact exec_round_changesCanonical rd imm strat s
      | _ => simp [Instr.op] at hop
    obtain ⟨⟩ := hstep.symm.trans hexec
    exact (hchanges r).resolve_left hchanged
  · obtain ⟨u, hstep, hchanges⟩ : ∃ u, exec i s = .next u ∧ ChangesCanonical s u := by
      cases i with
      | mov rd rs dl => exact exec_mov_changesCanonical rd rs dl hcanonical
      | setscale rd imm => exact exec_setscale_changesCanonical rd imm hcanonical
      | neg rd => exact exec_neg_changesCanonical rd s
      | rescale rd imm => exact exec_rescale_changesCanonical rd imm s
      | align rd rs => exact exec_align_changesCanonical rd rs s
      | round rd imm strat => exact exec_round_changesCanonical rd imm strat s
      | cmp rd rs => exact ⟨_, rfl, .of_reg_eq fun r => complete_reg rd .three _ _ s r⟩
      | tstz rd dl => exact ⟨_, rfl, .of_reg_eq fun r => complete_reg rd dl _ _ s r⟩
      | _ => simp [Instr.op] at hop
    obtain ⟨⟩ := hstep.symm.trans hexec
    exact hcanonical.of_changes hchanges

end Sys2Proof.Machine
end

section
/-! PROOFS. A command depends on the words it reads (10_state.md R32): two states that agree on them compute the same values,
so after the same register writes and the same completion they agree on what was written. -/

namespace Sys2Proof.Machine

/-! ### Agreement on words of the map -/

/-- Two states hold the same content in each of the words `ms`. -/
def AgreeOn (ms : List MapReg) (s s' : State) : Prop := ∀ m ∈ ms, s.readMap m = s'.readMap m

theorem AgreeOn.mono {ms ms' : List MapReg} {s s' : State} (h : AgreeOn ms s s') (hsub : ms' ⊆ ms) : AgreeOn ms' s s' :=
  fun m hm => h m (hsub hm)

theorem AgreeOn.flags {ms : List MapReg} {s s' : State} (h : AgreeOn ms s s') {r : RegNum} (hm : .flags r ∈ ms) :
    (s.reg r).flags = (s'.reg r).flags :=
  Option.some.inj (h (.flags r) hm)

theorem AgreeOn.sign {ms : List MapReg} {s s' : State} (h : AgreeOn ms s s') {r : RegNum} (hm : .flags r ∈ ms) :
    s.sign r = s'.sign r :=
  congrArg flagSign (h.flags hm)

theorem AgreeOn.scale {ms : List MapReg} {s s' : State} (h : AgreeOn ms s s') {r : RegNum} (hm : .flags r ∈ ms) :
    s.scale r = s'.scale r :=
  congrArg flagScale (h.flags hm)

theorem AgreeOn.scl {ms : List MapReg} {s s' : State} (h : AgreeOn ms s s') (hm : .scl ∈ ms) : s.scl = s'.scl :=
  Option.some.inj (h .scl hm)

/-- Agreement on the limbs is agreement on their integer. -/
theorem AgreeOn.val {ms : List MapReg} {s s' : State} (h : AgreeOn ms s s') {r : RegNum} {n : OpLen}
    (hsub : limbWords r n ⊆ ms) : s.val r n = s'.val r n := by
  have hlimbs := h.mono hsub
  have hlo : (s.reg r).lo = (s'.reg r).lo := Option.some.inj (hlimbs (.lo r) (by cases n <;> simp [limbWords]))
  have hmid : (s.reg r).mid = (s'.reg r).mid := Option.some.inj (hlimbs (.mid r) (by cases n <;> simp [limbWords]))
  have hhi : (s.reg r).hi = (s'.reg r).hi := Option.some.inj (hlimbs (.hi r) (by cases n <;> simp [limbWords]))
  cases n with
  | three => simp only [State.val, DecReg.val, hlo, hmid, hhi]
  | four =>
    have hext : (s.reg r).ext = (s'.reg r).ext := Option.some.inj (hlimbs (.ext r) (by simp [limbWords]))
    simp only [State.val, DecReg.val, hlo, hmid, hhi, hext]

/-- The same register writes extend an agreement by the words written, and lose none. -/
theorem AgreeOn.of_writes {ms ws : List MapReg} {s s' t t' : State} (h : AgreeOn ms s s') (hwrites : WritesOnly ws s t)
    (hwrites' : WritesOnly ws s' t') (hwritten : AgreeOn ws t t') : AgreeOn (ws ++ ms) t t' := by
  intro m hm
  by_cases hws : m ∈ ws
  · exact hwritten m hws
  · have hms : m ∈ ms := (List.mem_append.mp hm).resolve_left hws
    rw [hwrites.1 m hws, hwrites'.1 m hws, h m hms]

theorem AgreeOn.setVal {ms : List MapReg} {s s' : State} (h : AgreeOn ms s s') (r : RegNum) (n : OpLen) (v : Nat) :
    AgreeOn (limbWords r n ++ ms) (s.setVal r n v) (s'.setVal r n v) := by
  refine h.of_writes (setVal_writesOnly s r n v) (setVal_writesOnly s' r n v) ?_
  cases n <;> simp [AgreeOn, limbWords, State.readMap, DecReg.setVal]

theorem AgreeOn.setFlags {ms : List MapReg} {s s' : State} (h : AgreeOn ms s s') (r : RegNum) (w : Word) :
    AgreeOn (.flags r :: ms) (s.setFlags r w) (s'.setFlags r w) := by
  refine h.of_writes (ws := [.flags r]) (setFlags_writesOnly s r w) (setFlags_writesOnly s' r w) ?_
  simp [AgreeOn, State.readMap]

/-- A mantissa and a flag word. -/
theorem AgreeOn.setVal_setFs {ms : List MapReg} {s s' : State} (h : AgreeOn ms s s') (r : RegNum) (v : Nat) (sg : Bool)
    (sc : Nat) :
    AgreeOn (.flags r :: limbWords r .three ++ ms) ((s.setVal r .three v).setFs r sg sc)
      ((s'.setVal r .three v).setFs r sg sc) :=
  (h.setVal r .three v).setFlags r _

/-! ### Ending alike -/

/-- After command `i` two states hold the same in the words it writes, in RESULT and in STATUS[10:0]. -/
def EndsAlike (i : Instr) (t t' : State) : Prop :=
  AgreeOn (writesOf i) t t' ∧ t.result = t'.result ∧ t.status.extractLsb' 0 11 = t'.status.extractLsb' 0 11

/-- Completions of states that agree on the words written and on the limbs that flag Z tests. -/
theorem complete_endsAlike {i : Instr} {b b' : State} (h : AgreeOn (writesOf i) b b') {rd : RegNum} {n : OpLen}
    (hval : b.val rd n = b'.val rd n) (v : Nat) (f : CompletionFlags) :
    EndsAlike i (complete rd n v f b) (complete rd n v f b') := by
  refine ⟨fun m hm => ?_, rfl, ?_⟩
  · obtain ⟨hstatus, hresult⟩ := ne_of_mem_writesOf hm
    rw [complete_readMap rd n v f b hstatus hresult, complete_readMap rd n v f b' hstatus hresult, h m hm]
  · rw [complete_status, complete_status, withLow_extract_low, withLow_extract_low, State.isAllZero, State.isAllZero, hval]

/-- A limb kernel's end: the limbs written are all the command writes, and Z tests them. -/
theorem complete_setVal_endsAlike {i : Instr} {rd : RegNum} {n : OpLen} (hi : writesOf i = limbWords rd n) (s s' : State)
    (v res : Nat) (f : CompletionFlags) :
    EndsAlike i (complete rd n res f (s.setVal rd n v)) (complete rd n res f (s'.setVal rd n v)) := by
  have hnone : AgreeOn [] s s' := fun m hm => absurd hm List.not_mem_nil
  have hwritten := hnone.setVal rd n v
  rw [List.append_nil] at hwritten
  exact complete_endsAlike (hi ▸ hwritten) (hwritten.val (List.Subset.refl _)) res f

theorem storeWrapped_endsAlike {i : Instr} {rd : RegNum} {n : OpLen} (hi : writesOf i = limbWords rd n) (s s' : State)
    {v v' : Nat} (hv : v = v') : EndsAlike i (storeWrapped rd n v s) (storeWrapped rd n v' s') := by
  subst hv
  exact complete_setVal_endsAlike hi s s' _ _ _

theorem storeQuotient_endsAlike {i : Instr} {rd : RegNum} {n : OpLen} (hi : writesOf i = limbWords rd n) {s s' : State}
    (hval : s.val rd n = s'.val rd n) {k k' : Nat} (hk : k = k') :
    EndsAlike i (storeQuotient rd n k s) (storeQuotient rd n k' s') := by
  subst hk
  rw [storeQuotient, storeQuotient, hval]
  exact complete_setVal_endsAlike hi s s' _ _ _

theorem errorInvalidArgument_endsAlike {i : Instr} {s s' : State} (h : AgreeOn (writesOf i) s s') :
    EndsAlike i (errorInvalidArgument s) (errorInvalidArgument s') := by
  refine ⟨fun m hm => ?_, rfl, by simp⟩
  obtain ⟨hstatus, hresult⟩ := ne_of_mem_writesOf hm
  rw [errorInvalidArgument_readMap s hstatus hresult, errorInvalidArgument_readMap s' hstatus hresult, h m hm]

/-! ### The rescaler -/

/-- Two rescales that leave agreeing states and the same pair `(rnd, cap)`. -/
def RescaledAlike (ms : List MapReg) (r r' : Rescaled) : Prop :=
  AgreeOn ms r.state r'.state ∧ r.rnd = r'.rnd ∧ r.cap = r'.cap

/-- `rescale_reg` computes from the flag word and the mantissa of its register alone (44_rescale_align.md R130). -/
theorem rescaleReg_alike {ms : List MapReg} {s s' : State} (h : AgreeOn ms s s') {i : RegNum}
    (hsub : .flags i :: limbWords i .three ⊆ ms) (ts : Nat) :
    RescaledAlike ms (rescaleReg i ts s) (rescaleReg i ts s') := by
  obtain ⟨hflags, hlimbs⟩ := List.cons_subset.mp hsub
  have hscale := h.scale hflags
  have hsign := h.sign hflags
  have hval := h.val hlimbs
  have hstored (v : Nat) (sg : Bool) (sc : Nat) :
      AgreeOn ms ((s.setVal i .three v).setFs i sg sc) ((s'.setVal i .three v).setFs i sg sc) :=
    (h.setVal_setFs i v sg sc).mono (List.subset_append_right _ _)
  unfold rescaleReg reduceReg raiseReg
  rw [hscale, hval, hsign]
  split_ifs
  · exact ⟨h, rfl, rfl⟩
  · exact ⟨(h.setFlags i _).mono (List.subset_cons_self _ _), rfl, rfl⟩
  · cases reduceDigits (s'.scale i - ts) (s'.val i .three) 0 with
    | none => exact ⟨hstored _ _ _, rfl, rfl⟩
    | some p => exact ⟨hstored _ _ _, rfl, rfl⟩
  · exact ⟨hstored _ _ _, rfl, rfl⟩

/-- ALIGN's one or two rescales. -/
theorem alignRegs_alike {ms : List MapReg} {s s' : State} (h : AgreeOn ms s s') {low high : RegNum}
    (hlow : .flags low :: limbWords low .three ⊆ ms) (hhigh : .flags high :: limbWords high .three ⊆ ms) :
    RescaledAlike ms (alignRegs low high s) (alignRegs low high s') := by
  have hscale := h.scale (hhigh List.mem_cons_self)
  obtain ⟨hup, -, hcap⟩ := rescaleReg_alike h hlow (s'.scale high)
  have hupLow := hup.scale (hlow List.mem_cons_self)
  have hupHigh := hup.scale (hhigh List.mem_cons_self)
  simp only [alignRegs, hscale, hupLow, hupHigh]
  split
  · obtain ⟨hdown, hrnd, -⟩ := rescaleReg_alike hup hhigh ((rescaleReg low (s'.scale high) s').state.scale low)
    exact ⟨hdown, hrnd, hcap⟩
  · exact ⟨hup, rfl, hcap⟩

/-- A rescale and its completion, RESULT the scale the register then has (R131, R132). -/
theorem rescaled_complete_endsAlike {i : Instr} {r r' : Rescaled} (h : RescaledAlike (writesOf i) r r') {rd : RegNum}
    (hsub : .flags rd :: limbWords rd .three ⊆ writesOf i) :
    EndsAlike i (complete rd .three (r.state.scale rd) { rnd := r.rnd, cap := r.cap } r.state)
      (complete rd .three (r'.state.scale rd) { rnd := r'.rnd, cap := r'.cap } r'.state) := by
  obtain ⟨hstate, hrnd, hcap⟩ := h
  obtain ⟨hflags, hlimbs⟩ := List.cons_subset.mp hsub
  rw [hstate.scale hflags, hrnd, hcap]
  exact complete_endsAlike hstate (hstate.val hlimbs) _ _

/-! ### The commands -/

/-- A fault condition reads only words the command reads: SCL, for DIVS. -/
theorem faultOf_congr {i : Instr} {s s' : State} (h : AgreeOn (readsOf i) s s') : faultOf i s = faultOf i s' := by
  cases i with
  | divs rd dl => rw [faultOf, faultOf, h.scl List.mem_cons_self]
  | _ => rfl

/-- A command run in two states ends alike. -/
def ExecAlike (i : Instr) (s s' : State) : Prop :=
  ∃ t t', exec i s = .next t ∧ exec i s' = .next t' ∧ EndsAlike i t t'

/-! #### The value commands -/

/-- A command that reads a register's flag word and mantissa and writes a flag word (SETSCALE, NEG). -/
theorem setFs_endsAlike {i : Instr} {rd : RegNum} (hi : writesOf i = [.flags rd]) {s s' : State}
    (h : AgreeOn (.flags rd :: limbWords rd .three) s s') (sg : Bool) (sc v : Nat) (f : CompletionFlags) :
    EndsAlike i (complete rd .three v f (s.setFs rd sg sc)) (complete rd .three v f (s'.setFs rd sg sc)) := by
  have hwritten : AgreeOn (.flags rd :: .flags rd :: limbWords rd .three) (s.setFs rd sg sc) (s'.setFs rd sg sc) :=
    h.setFlags rd _
  refine complete_endsAlike (hi ▸ hwritten.mono (by simp)) (hwritten.val fun m hm => ?_) v f
  exact List.mem_cons_of_mem _ (List.mem_cons_of_mem _ hm)

theorem execAlike_setscale {rd : RegNum} {imm : BitVec 8} {s s' : State}
    (h : AgreeOn (readsOf (.setscale rd imm)) s s') : ExecAlike (.setscale rd imm) s s' := by
  obtain habove | hle := Nat.lt_or_ge 28 imm.toNat
  · refine ⟨_, _, execSetscale_of_gt habove rd s, execSetscale_of_gt habove rd s', ?_⟩
    exact errorInvalidArgument_endsAlike (h.mono (by simp [writesOf, readsOf]))
  · refine ⟨_, _, execSetscale_of_le hle rd s, execSetscale_of_le hle rd s', ?_⟩
    rw [h.sign List.mem_cons_self]
    exact setFs_endsAlike rfl h _ _ _ _

theorem execAlike_neg {rd : RegNum} {s s' : State} (h : AgreeOn (readsOf (.neg rd)) s s') :
    ExecAlike (.neg rd) s s' := by
  have hnew : s.negatedSign rd = s'.negatedSign rd := by
    rw [State.negatedSign, State.negatedSign, h.val (List.subset_cons_self _ _), h.sign List.mem_cons_self]
  refine ⟨_, _, execNeg_eq rd s, execNeg_eq rd s', ?_⟩
  rw [hnew, h.scale List.mem_cons_self]
  exact setFs_endsAlike rfl h _ _ _ _

theorem execAlike_mov {rd rs : RegNum} {dl : OpLen} {s s' : State} (h : AgreeOn (readsOf (.mov rd rs dl)) s s') :
    ExecAlike (.mov rd rs dl) s s' := by
  refine ⟨_, _, rfl, rfl, ?_⟩
  rw [h.flags List.mem_cons_self, h.val (List.subset_cons_self _ _)]
  have hwritten := (h.setFlags rd (s'.reg rs).flags).setVal rd dl (s'.val rs dl)
  have hlimbs : limbWords rd dl ⊆ limbWords rd dl ++ .flags rd :: readsOf (.mov rd rs dl) :=
    List.subset_append_left _ _
  have hwrites : writesOf (.mov rd rs dl) ⊆ limbWords rd dl ++ .flags rd :: readsOf (.mov rd rs dl) :=
    List.cons_subset.mpr ⟨by simp, hlimbs⟩
  exact complete_endsAlike (hwritten.mono hwrites) (hwritten.val hlimbs) _ _

theorem execAlike_rescale {rd : RegNum} {imm : BitVec 8} {s s' : State} (h : AgreeOn (readsOf (.rescale rd imm)) s s') :
    ExecAlike (.rescale rd imm) s s' := by
  have hwritten : AgreeOn (writesOf (.rescale rd imm)) s s' := h
  have hsub : .flags rd :: limbWords rd .three ⊆ writesOf (.rescale rd imm) := List.Subset.refl _
  obtain habove | hle := Nat.lt_or_ge 28 imm.toNat
  · exact ⟨_, _, if_pos habove, if_pos habove, errorInvalidArgument_endsAlike hwritten⟩
  · exact ⟨_, _, if_neg (Nat.not_lt_of_le hle), if_neg (Nat.not_lt_of_le hle),
      rescaled_complete_endsAlike (rescaleReg_alike hwritten hsub imm.toNat) hsub⟩

theorem execAlike_align {rd rs : RegNum} {s s' : State} (h : AgreeOn (readsOf (.align rd rs)) s s') :
    ExecAlike (.align rd rs) s s' := by
  have hwritten : AgreeOn (writesOf (.align rd rs)) s s' := h
  have hsubd : .flags rd :: limbWords rd .three ⊆ writesOf (.align rd rs) := List.subset_append_left _ _
  have hsubs : .flags rs :: limbWords rs .three ⊆ writesOf (.align rd rs) := List.subset_append_right _ _
  have hd := hwritten.scale (hsubd List.mem_cons_self)
  have hs := hwritten.scale (hsubs List.mem_cons_self)
  refine ⟨_, _, rfl, rfl, rescaled_complete_endsAlike ?_ hsubd⟩
  rw [hd, hs]
  split_ifs
  · exact ⟨hwritten, rfl, rfl⟩
  · exact alignRegs_alike hwritten hsubd hsubs
  · exact alignRegs_alike hwritten hsubs hsubd

theorem execAlike_round {rd : RegNum} {imm : BitVec 8} {strat : Strategy} {s s' : State}
    (h : AgreeOn (readsOf (.round rd imm strat)) s s') : ExecAlike (.round rd imm strat) s s' := by
  have hread : AgreeOn (writesOf (.round rd imm strat)) s s' := h
  have hsign := h.sign List.mem_cons_self
  have hscale := h.scale List.mem_cons_self
  have hval := h.val (List.subset_cons_self (MapReg.flags rd) _)
  obtain hdropped | hkept := Nat.lt_or_ge imm.toNat (s.scale rd)
  · have hup : s.roundUpBit rd imm.toNat strat = s'.roundUpBit rd imm.toNat strat := by
      simp only [State.roundUpBit, hscale, hval, hsign]
    have hm : s.roundedMantissa rd imm.toNat strat = s'.roundedMantissa rd imm.toNat strat := by
      simp only [State.roundedMantissa, hscale, hval, hup]
    refine ⟨_, _, execRound_of_lt hdropped strat, execRound_of_lt (hscale ▸ hdropped) strat, ?_⟩
    rw [hup, hm, hsign]
    have hwritten : AgreeOn (writesOf (.round rd imm strat)) _ _ :=
      (hread.setVal_setFs rd (s'.roundedMantissa rd imm.toNat strat)
        (decide (s'.roundedMantissa rd imm.toNat strat ≠ 0) && s'.sign rd) imm.toNat).mono (List.subset_append_right _ _)
    exact complete_endsAlike hwritten (hwritten.val (List.subset_cons_self _ _)) _ _
  · refine ⟨_, _, execRound_of_le hkept strat, execRound_of_le (hscale ▸ hkept) strat, ?_⟩
    rw [hscale]
    exact complete_endsAlike hread hval _ _

/-- A command without a fault ends alike in two states that agree on the words it reads. -/
theorem execAlike_of_agree {i : Instr} {s s' : State} (h : AgreeOn (readsOf i) s s') (hfault : faultOf i s = none) :
    ExecAlike i s s' := by
  cases i with
  | add rd rs dl sl =>
    have hpair := (lengthsMismatch_iff dl sl).not.mpr (by simpa [faultOf] using hfault)
    have hd := h.val (List.subset_append_left (limbWords rd dl) (limbWords rs sl))
    have hs := h.val (List.subset_append_right (limbWords rd dl) (limbWords rs sl))
    exact ⟨_, _, if_neg hpair, if_neg hpair, storeWrapped_endsAlike rfl s s' (by rw [hd, hs])⟩
  | sub rd rs dl sl =>
    have hpair := (lengthsMismatch_iff dl sl).not.mpr (by simpa [faultOf] using hfault)
    have hd := h.val (List.subset_append_left (limbWords rd dl) (limbWords rs sl))
    have hs := h.val (List.subset_append_right (limbWords rd dl) (limbWords rs sl))
    refine ⟨_, _, if_neg hpair, if_neg hpair, ?_⟩
    simp only [hd, hs]
    exact complete_setVal_endsAlike rfl s s' _ _ _
  | adds rd dl | muls rd dl =>
    have hd := h.val (List.subset_cons_self .scl (limbWords rd dl))
    have hscl := h.scl List.mem_cons_self
    exact ⟨_, _, rfl, rfl, storeWrapped_endsAlike rfl s s' (by rw [hd, hscl])⟩
  | inc rd dl | shl1 rd dl ci =>
    have hd := h.val (List.Subset.refl (limbWords rd dl))
    exact ⟨_, _, rfl, rfl, storeWrapped_endsAlike rfl s s' (by rw [hd])⟩
  | mulp rd dl imm | shln rd dl imm =>
    have hd := h.val (List.Subset.refl (limbWords rd dl))
    exact ⟨_, _, if_pos (by simpa [faultOf] using hfault), if_pos (by simpa [faultOf] using hfault),
      storeWrapped_endsAlike rfl s s' (by rw [hd])⟩
  | divp rd dl imm =>
    have hle : imm.toNat ≤ 9 := by simpa [faultOf] using hfault
    have hd := h.val (List.Subset.refl (limbWords rd dl))
    exact ⟨_, _, if_pos hle, if_pos hle, storeQuotient_endsAlike rfl hd rfl⟩
  | divs rd dl =>
    have hscl := h.scl List.mem_cons_self
    have hd := h.val (List.subset_cons_self .scl (limbWords rd dl))
    have hne : s.scl.toNat ≠ 0 := by simpa [faultOf, ← BitVec.toNat_inj] using hfault
    exact ⟨_, _, if_neg hne, if_neg (hscl ▸ hne), storeQuotient_endsAlike rfl hd (congrArg BitVec.toNat hscl)⟩
  | cmp rd rs =>
    have hd := h.val (List.subset_append_left (limbWords rd .three) (limbWords rs .three))
    have hs := h.val (List.subset_append_right (limbWords rd .three) (limbWords rs .three))
    refine ⟨_, _, rfl, rfl, ?_⟩
    rw [hd, hs]
    exact complete_endsAlike (fun m hm => absurd hm List.not_mem_nil) hd _ _
  | tstz rd dl =>
    have hd := h.val (List.Subset.refl (limbWords rd dl))
    refine ⟨_, _, rfl, rfl, ?_⟩
    rw [State.isAllZero, State.isAllZero, hd]
    exact complete_endsAlike (fun m hm => absurd hm List.not_mem_nil) hd _ _
  | mov => exact execAlike_mov h
  | setscale => exact execAlike_setscale h
  | neg => exact execAlike_neg h
  | rescale => exact execAlike_rescale h
  | align => exact execAlike_align h
  | round => exact execAlike_round h

/-- Settles O24: without a fault the command ends alike; fault entry keeps every word of a register. -/
theorem commandsDependOnlyOnTheirReads : Obligations.CommandsDependOnlyOnTheirReads := by
  unfold Obligations.CommandsDependOnlyOnTheirReads
  intro i s s' t t' hagree hexec hexec'
  cases hfault : faultOf i s with
  | none =>
    obtain ⟨u, u', hu, hu', hwords, hresult, hstatus⟩ := execAlike_of_agree hagree hfault
    obtain ⟨⟩ := hu.symm.trans hexec
    obtain ⟨⟩ := hu'.symm.trans hexec'
    exact ⟨fun m hm _ => hwords m hm, fun _ => ⟨hresult, hstatus⟩⟩
  | some c =>
    have hfault' : faultOf i s' = some c := faultOf_congr hagree ▸ hfault
    obtain ⟨⟩ := (exec_of_faultOf_eq_some hfault).symm.trans hexec
    obtain ⟨⟩ := (exec_of_faultOf_eq_some hfault').symm.trans hexec'
    refine ⟨fun m hm hread => ?_, fun hnone => by cases hnone⟩
    have hreg := isRegWord_of_mem_writesOf hm
    have hkept (x : State) : (raiseFault c (encode i) x).readMap m = x.readMap m := by
      cases m <;> simp_all [State.readMap, MapReg.isRegWord]
    rw [hkept, hkept]
    exact hagree m (hread.resolve_right (by simp))

end Sys2Proof.Machine
end

section
/-! PROOFS. The limb kernel (41_limb_add_sub.md, 42_limb_mul_div.md, 43_limb_shift_compare.md): ADD and SUB with their length
fault, products and quotients by a power of ten, the shift by an immediate, and the laws that tie the commands together. -/

namespace Sys2Proof.Machine

/-! ### Fault entry of a kernel command -/

/-- A command that meets its fault condition enters the fault with its own word. -/
theorem exec_faultEntered {i : Instr} {s : State} {c : FaultCause} (h : faultOf i s = some c) :
    ∃ t, exec i s = .next t ∧ FaultEntered c (encode i) s t :=
  ⟨_, exec_of_faultOf_eq_some h, raiseFault_faultEntered c (encode i) s⟩

/-! ### ADD and SUB (R101, R104) -/

/-- Every length pair but (3, 4) has a source that fits the value's limbs. -/
theorem val_lt_radix_of_lengths {dl sl : OpLen} (h : ¬ (dl = .three ∧ sl = .four)) (s : State) (rs : RegNum) :
    s.val rs sl < radix dl := by
  have hle : radix sl ≤ radix dl := by cases dl <;> cases sl <;> simp_all [radix]
  exact (State.val_lt_radix s rs sl).trans_le hle

theorem execAdd_of_lengths {dl sl : OpLen} (h : ¬ (dl = .three ∧ sl = .four)) (rd rs : RegNum) (s : State) :
    execAdd rd rs dl sl s = .next (storeWrapped rd dl (s.val rd dl + s.val rs sl) s) :=
  if_neg ((lengthsMismatch_iff dl sl).not.mpr h)

/-- Settles O25: the source fits the value's limbs, so the sum carries at most 1. -/
theorem addAddsWithCarryOut : Obligations.AddAddsWithCarryOut := by
  unfold Obligations.AddAddsWithCarryOut
  intro rd rs dl sl s
  refine ⟨fun hpair => exec_faultEntered (if_pos hpair), fun hpair => ?_⟩
  exact ⟨_, _, execAdd_of_lengths hpair rd rs s, storeWrapped_sum_spec rd dl s (val_lt_radix_of_lengths hpair s rs)⟩

/-- SUB's end: `a - b` wrapped over the limbs, the borrow in RESULT and C. -/
def storeDifference (rd : RegNum) (n : OpLen) (b : Nat) (s : State) : State :=
  complete rd n (if s.val rd n < b then 1 else 0) { c := decide (s.val rd n < b) }
    (s.setVal rd n ((radix n + s.val rd n - b) % radix n))

theorem execSub_of_lengths {dl sl : OpLen} (h : ¬ (dl = .three ∧ sl = .four)) (rd rs : RegNum) (s : State) :
    execSub rd rs dl sl s = .next (storeDifference rd dl (s.val rs sl) s) := by
  rw [storeDifference, radix_eq_two_pow]
  exact if_neg ((lengthsMismatch_iff dl sl).not.mpr h)

/-- Two's-complement wrap: the difference, one radix up exactly when there is a borrow. -/
theorem wrapped_difference {a b r : Nat} (ha : a < r) (hb : b < r) :
    (r + a - b) % r + b = a + r * (if a < b then 1 else 0) := by
  split
  · rw [Nat.mod_eq_of_lt (by omega)]
    omega
  · rw [show r + a - b = a - b + r by omega, Nat.add_mod_right, Nat.mod_eq_of_lt (by omega)]
    omega

/-- RD minus a subtrahend that fits the limbs (R104). -/
theorem storeDifference_spec (rd : RegNum) (n : OpLen) {b : Nat} (s : State) (hb : b < radix n) :
    let t := storeDifference rd n b s
    let k := if s.val rd n < b then 1 else 0
    k ≤ 1 ∧ t.val rd n + b = s.val rd n + radix n * k ∧ (k = 1 ↔ s.val rd n < b) ∧
      CompletedWith t rd n k (decide (k = 1)) 0 false false ∧ LimbsOnly rd n s t := by
  intro t k
  have ha := State.val_lt_radix s rd n
  have hk : k ≤ 1 := by unfold k; split <;> decide
  have hborrow : k = 1 ↔ s.val rd n < b := by unfold k; split <;> simp [*]
  have hfits : (radix n + s.val rd n - b) % radix n < 2 ^ bitLen n := by
    rw [← radix_eq_two_pow]
    exact Nat.mod_lt _ (by omega)
  have hval : t.val rd n = (radix n + s.val rd n - b) % radix n := by
    rw [← State.val_setVal s rd n hfits]
    exact complete_val rd n n _ _ _ rd
  refine ⟨hk, ?_, hborrow, ?_, ?_, ?_, ?_⟩
  · rw [hval]
    exact wrapped_difference ha hb
  · rw [decide_eq_decide.mpr hborrow]
    exact complete_completedWith rd n _ _ (hk.trans_lt (by decide))
  · exact (setReg_othersSame s rd _).trans (complete_othersSame rd rd n _ _ _)
  · simp [t, storeDifference]
  · rintro rfl
    simp [t, storeDifference]

/-- Settles O28. -/
theorem subSubtractsWithBorrowOut : Obligations.SubSubtractsWithBorrowOut := by
  unfold Obligations.SubSubtractsWithBorrowOut
  intro rd rs dl sl s
  refine ⟨fun hpair => exec_faultEntered (if_pos hpair), fun hpair => ?_⟩
  exact ⟨_, _, execSub_of_lengths hpair rd rs s, storeDifference_spec rd dl s (val_lt_radix_of_lengths hpair s rs)⟩

/-! ### MULP, DIVS and DIVP (R112 to R114) -/

theorem ten_pow_lt_limb {k : Nat} (h : k ≤ 9) : 10 ^ k < 2 ^ 32 :=
  (Nat.pow_le_pow_right (by decide) h).trans_lt (by decide)

theorem execMulp_of_le {imm : BitVec 8} (h : imm.toNat ≤ 9) (rd : RegNum) (dl : OpLen) (s : State) :
    execMulp rd dl imm s = .next (storeWrapped rd dl (s.val rd dl * 10 ^ imm.toNat) s) := by
  rw [← pow10_eq h]
  exact if_pos h

theorem execDivp_of_le {imm : BitVec 8} (h : imm.toNat ≤ 9) (rd : RegNum) (dl : OpLen) (s : State) :
    execDivp rd dl imm s = .next (storeQuotient rd dl (10 ^ imm.toNat) s) := by
  rw [← pow10_eq h]
  exact if_pos h

theorem execDivs_of_ne {s : State} (h : s.scl ≠ 0#32) (rd : RegNum) (dl : OpLen) :
    execDivs rd dl s = .next (storeQuotient rd dl s.scl.toNat s) :=
  if_neg fun h0 => h (BitVec.eq_of_toNat_eq h0)

/-- Settles O30. -/
theorem mulpMultipliesByAPowerOfTen : Obligations.MulpMultipliesByAPowerOfTen := by
  unfold Obligations.MulpMultipliesByAPowerOfTen
  intro rd dl imm s
  refine ⟨fun hle => ?_, fun habove => exec_faultEntered (if_pos habove)⟩
  obtain ⟨-, hproduct⟩ := storeWrapped_product_spec rd dl s (ten_pow_lt_limb hle)
  exact ⟨_, _, execMulp_of_le hle rd dl s, hproduct⟩

/-- Division by a scalar that fits a limb: the remainder, and the old integer from it and the quotient (R113). -/
theorem storeQuotient_division_spec (rd : RegNum) (n : OpLen) {k : Nat} (s : State) (h0 : 0 < k) (h : k < 2 ^ 32) :
    let t := storeQuotient rd n k s
    let r := s.val rd n % k
    r < k ∧ s.val rd n = t.val rd n * k + r ∧ CompletedWith t rd n r false 0 false false ∧ LimbsOnly rd n s t := by
  intro t r
  obtain ⟨hval, hdone, hframe⟩ := storeQuotient_spec rd n s h0 h
  refine ⟨Nat.mod_lt _ h0, ?_, hdone, hframe⟩
  rw [hval, Nat.mul_comm]
  exact (Nat.div_add_mod _ _).symm

theorem scl_toNat_pos {s : State} (h : s.scl ≠ 0#32) : 0 < s.scl.toNat :=
  Nat.pos_of_ne_zero fun h0 => h (BitVec.eq_of_toNat_eq h0)

/-- Settles O31. -/
theorem divsDividesByTheScalar : Obligations.DivsDividesByTheScalar := by
  unfold Obligations.DivsDividesByTheScalar
  intro rd dl s
  refine ⟨fun hzero => exec_faultEntered (if_pos hzero), fun hne => ?_⟩
  exact ⟨_, _, execDivs_of_ne hne rd dl, storeQuotient_division_spec rd dl s (scl_toNat_pos hne) s.scl.isLt⟩

/-- Settles O32: a power of ten is never 0. -/
theorem divpDividesByAPowerOfTen : Obligations.DivpDividesByAPowerOfTen := by
  unfold Obligations.DivpDividesByAPowerOfTen
  intro rd dl imm s
  refine ⟨fun hle => ?_, fun habove => exec_faultEntered (if_pos habove)⟩
  exact ⟨_, _, execDivp_of_le hle rd dl s,
    storeQuotient_division_spec rd dl s (Nat.pow_pos (by decide)) (ten_pow_lt_limb hle)⟩

/-! ### SHLN (R121) -/

theorem execShln_of_le {imm : BitVec 8} (h : imm.toNat ≤ 32) (rd : RegNum) (dl : OpLen) (s : State) :
    execShln rd dl imm s = .next (storeWrapped rd dl (s.val rd dl * 2 ^ imm.toNat) s) := if_pos h

/-- A shift by `n` shifts out less than `2 ^ n`. -/
theorem shift_carry_lt {a r : Nat} (ha : a < r) (n : Nat) : a * 2 ^ n / r < 2 ^ n := by
  have hle := product_carry_le_pred ha (2 ^ n)
  have hpos := Nat.two_pow_pos n
  omega

/-- Settles O34: the bits shifted out fit RESULT even for N = 32. -/
theorem shlnShiftsLeftByTheImmediate : Obligations.ShlnShiftsLeftByTheImmediate := by
  unfold Obligations.ShlnShiftsLeftByTheImmediate
  intro rd dl imm s
  refine ⟨fun hle => ?_, fun habove => exec_faultEntered (if_pos habove)⟩
  have hcarry := shift_carry_lt (State.val_lt_radix s rd dl) imm.toNat
  have hfits := hcarry.trans_le (Nat.pow_le_pow_right (by decide) hle)
  exact ⟨_, _, execShln_of_le hle rd dl s, hcarry, storeWrapped_radix_spec rd dl s hfits⟩

/-! ### What a kernel command leaves, for the laws between commands -/

theorem radix_pos (n : OpLen) : 0 < radix n := (Nat.two_pow_pos 32).trans (two_pow_limb_lt_radix n)

/-- A kernel result in the registers: RD takes the wrapped integer, nothing else changes. -/
theorem storeWrapped_reg_same (rd : RegNum) (n : OpLen) (v : Nat) (s : State) :
    (storeWrapped rd n v s).reg rd = (s.reg rd).setVal n (v % radix n) := by
  rw [storeWrapped, complete_reg, State.setVal_reg_same, radix_eq_two_pow]

theorem storeWrapped_reg_ne {rd r : RegNum} (h : r ≠ rd) (n : OpLen) (v : Nat) (s : State) :
    (storeWrapped rd n v s).reg r = s.reg r := by
  rw [storeWrapped, complete_reg]
  exact State.reg_setReg_ne s _ h

theorem storeWrapped_result (rd : RegNum) (n : OpLen) (v : Nat) (s : State) :
    (storeWrapped rd n v s).result = BitVec.ofNat 32 (v / radix n) := by
  rw [storeWrapped, complete_result, radix_eq_two_pow]

theorem storeWrapped_val (rd : RegNum) (n : OpLen) (v : Nat) (s : State) :
    (storeWrapped rd n v s).val rd n = v % radix n := by
  rw [State.val, storeWrapped_reg_same, DecReg.val_setVal]
  rw [← radix_eq_two_pow]
  exact Nat.mod_lt _ (radix_pos n)

theorem storeWrapped_val_ne {rd r : RegNum} (h : r ≠ rd) (n m : OpLen) (v : Nat) (s : State) :
    (storeWrapped rd n v s).val r m = s.val r m := by
  rw [State.val, storeWrapped_reg_ne h]
  rfl

/-- Two kernel results one after the other: the second integer replaces the first. -/
theorem storeWrapped_storeWrapped_reg (rd r : RegNum) (n : OpLen) (v w : Nat) (s : State) :
    (storeWrapped rd n w (storeWrapped rd n v s)).reg r = (storeWrapped rd n w s).reg r := by
  by_cases hr : r = rd
  · subst hr
    rw [storeWrapped_reg_same, storeWrapped_reg_same, storeWrapped_reg_same, DecReg.setVal_setVal]
  · rw [storeWrapped_reg_ne hr, storeWrapped_reg_ne hr, storeWrapped_reg_ne hr]

/-- RD with its own integer stored again. -/
theorem setVal_own (d : DecReg) {n : OpLen} {v : Nat} (h : v = d.val n) : d.setVal n v = d := by
  rw [h, DecReg.setVal_val]

/-! ### SHLN as repeated SHL1 (R121) -/

/-- Doubling after wrapping: the same integer, the carries collected most significant first. -/
theorem double_of_wrapped (x : Nat) {r : Nat} (hr : 0 < r) :
    x % r * 2 % r = x * 2 % r ∧ x * 2 / r = 2 * (x / r) + x % r * 2 / r := by
  have hx : x * 2 = x % r * 2 + r * (2 * (x / r)) := by
    rw [Nat.mul_left_comm, ← Nat.mul_comm (r * (x / r)), ← Nat.add_mul, Nat.mod_add_div]
  constructor
  · rw [hx, Nat.add_mul_mod_self_left]
  · rw [hx, Nat.add_mul_div_left _ _ hr, Nat.add_comm]

/-- Settles O35: `2 ^ (N + 1)` is a doubling of `2 ^ N`, wrapped or not (`double_of_wrapped`). -/
theorem shlnIsRepeatedShl1 : Obligations.ShlnIsRepeatedShl1 := by
  unfold Obligations.ShlnIsRepeatedShl1
  intro rd dl imm s t u hlt hshln hshl1
  have hnext : (imm + 1#8).toNat = imm.toNat + 1 := by
    rw [BitVec.toNat_add, Nat.mod_eq_of_lt]
    · rfl
    · simp only [BitVec.toNat_ofNat]
      omega
  obtain ⟨⟩ := (execShln_of_le hlt.le rd dl s).symm.trans hshln
  obtain ⟨⟩ := (show execShl1 rd dl false _ = _ from rfl).symm.trans hshl1
  have hv := execShln_of_le (imm := imm + 1#8) (by omega) rd dl s
  rw [hnext, Nat.pow_succ, ← Nat.mul_assoc] at hv
  have ha := State.val_lt_radix s rd dl
  have hcarry := shift_carry_lt ha imm.toNat
  have hcarry' := shift_carry_lt ha (imm.toNat + 1)
  rw [Nat.pow_succ, ← Nat.mul_assoc] at hcarry'
  generalize hx : s.val rd dl * 2 ^ imm.toNat = x at *
  obtain ⟨hmod, hdiv⟩ := double_of_wrapped x (radix_pos dl)
  have h32 : 2 ^ imm.toNat * 2 ≤ 2 ^ 32 := by
    rw [← Nat.pow_succ]
    exact Nat.pow_le_pow_right (by decide) hlt
  refine ⟨_, hv, fun r => ?_, ?_⟩
  · rw [storeWrapped_storeWrapped_reg, storeWrapped_val]
    by_cases hr : r = rd
    · subst hr
      simp only [storeWrapped_reg_same, Bool.toNat_false, Nat.add_zero, hmod]
    · rw [storeWrapped_reg_ne hr, storeWrapped_reg_ne hr]
  · simp only [storeWrapped_result, storeWrapped_val, Bool.toNat_false, Nat.add_zero, BitVec.toNat_ofNat]
    rw [Nat.mod_eq_of_lt (by omega), Nat.mod_eq_of_lt (by omega), Nat.mod_eq_of_lt (by omega), hdiv]

/-! ### Laws between the commands -/

theorem storeDifference_reg_same (rd : RegNum) (n : OpLen) (b : Nat) (s : State) :
    (storeDifference rd n b s).reg rd = (s.reg rd).setVal n ((radix n + s.val rd n - b) % radix n) := by
  rw [storeDifference, complete_reg, State.setVal_reg_same]

theorem storeDifference_reg_ne {rd r : RegNum} (h : r ≠ rd) (n : OpLen) (b : Nat) (s : State) :
    (storeDifference rd n b s).reg r = s.reg r := by
  rw [storeDifference, complete_reg]
  exact State.reg_setReg_ne s _ h

/-- Taking an addend off a wrapped sum: the first summand is back, and the borrow is the carry. -/
theorem difference_of_wrapped_sum {a b r : Nat} (ha : a < r) (hb : b < r) :
    (r + (a + b) % r - b) % r = a ∧ (if (a + b) % r < b then 1 else 0) = (a + b) / r := by
  obtain hlt | hge := Nat.lt_or_ge (a + b) r
  · rw [Nat.mod_eq_of_lt hlt, Nat.div_eq_of_lt hlt, if_neg (by omega), show r + (a + b) - b = a + r by omega,
      Nat.add_mod_right, Nat.mod_eq_of_lt ha]
    exact ⟨rfl, rfl⟩
  · have hmod : (a + b) % r = a + b - r := by
      rw [Nat.mod_eq_sub_mod hge, Nat.mod_eq_of_lt (by omega)]
    rw [hmod, (carry_eq_one_iff ha hb).2 hge, if_pos (by omega), show r + (a + b - r) - b = a by omega,
      Nat.mod_eq_of_lt ha]
    exact ⟨rfl, rfl⟩

/-- Settles O38: the source is another register, so SUB takes off what ADD put on (`difference_of_wrapped_sum`). -/
theorem subUndoesAdd : Obligations.SubUndoesAdd := by
  unfold Obligations.SubUndoesAdd
  intro rd rs dl sl s t u hne hpair hadd hsub
  obtain ⟨⟩ := (execAdd_of_lengths hpair rd rs s).symm.trans hadd
  obtain ⟨⟩ := (execSub_of_lengths hpair rd rs _).symm.trans hsub
  obtain ⟨hback, hborrow⟩ :=
    difference_of_wrapped_sum (State.val_lt_radix s rd dl) (val_lt_radix_of_lengths hpair s rs)
  refine ⟨fun r => ?_, ?_⟩
  · by_cases hr : r = rd
    · subst hr
      rw [storeDifference_reg_same, storeWrapped_val, storeWrapped_val_ne hne.symm, storeWrapped_reg_same,
        DecReg.setVal_setVal, setVal_own _ hback]
    · rw [storeDifference_reg_ne hr, storeWrapped_reg_ne hr]
  · rw [storeDifference, complete_result, storeWrapped_val, storeWrapped_val_ne hne.symm, hborrow, storeWrapped_result]

/-- A quotient in the registers. -/
theorem storeQuotient_reg_same (rd : RegNum) (n : OpLen) (k : Nat) (s : State) :
    (storeQuotient rd n k s).reg rd = (s.reg rd).setVal n (s.val rd n / k) := by
  rw [storeQuotient, complete_reg, State.setVal_reg_same]

theorem storeQuotient_reg_ne {rd r : RegNum} (h : r ≠ rd) (n : OpLen) (k : Nat) (s : State) :
    (storeQuotient rd n k s).reg r = s.reg r := by
  rw [storeQuotient, complete_reg]
  exact State.reg_setReg_ne s _ h

@[simp] theorem storeQuotient_scl (rd : RegNum) (n : OpLen) (k : Nat) (s : State) : (storeQuotient rd n k s).scl = s.scl := by
  rw [storeQuotient, complete_scl]
  exact State.setReg_scl s rd _

@[simp] theorem State.withScl_val (s : State) (v : Word) (r : RegNum) (n : OpLen) :
    ({ s with scl := v } : State).val r n = s.val r n := by
  rw [State.val, State.withScl_reg]
  rfl

/-- A kernel result that fits the limbs leaves RESULT 0. -/
theorem storeWrapped_result_of_lt {n : OpLen} {v : Nat} (h : v < radix n) (rd : RegNum) (s : State) :
    (storeWrapped rd n v s).result = 0#32 := by
  rw [storeWrapped_result, Nat.div_eq_of_lt h]

/-- Settles O39: quotient times scalar, and that plus the remainder, both stay inside the limbs. -/
theorem divideMultiplyAddRestores : Obligations.DivideMultiplyAddRestores := by
  unfold Obligations.DivideMultiplyAddRestores
  intro rd dl s t u v hne hdivs hmuls hadds
  obtain ⟨hquotient, ⟨hremainder, -⟩, -⟩ := storeQuotient_spec rd dl s (scl_toNat_pos hne) s.scl.isLt
  obtain ⟨⟩ := (execDivs_of_ne hne rd dl).symm.trans hdivs
  obtain ⟨⟩ := (show execMuls rd dl _ = _ from rfl).symm.trans hmuls
  obtain ⟨⟩ := (show execAdds rd dl _ = _ from rfl).symm.trans hadds
  have ha := State.val_lt_radix s rd dl
  have hdivision := Nat.div_add_mod' (s.val rd dl) s.scl.toNat
  have hproduct : s.val rd dl / s.scl.toNat * s.scl.toNat < radix dl := by omega
  simp only [storeQuotient_scl, hquotient, hremainder, State.withScl_val, storeWrapped_val, Nat.mod_eq_of_lt hproduct,
    hdivision]
  refine ⟨fun r => ?_, storeWrapped_result_of_lt hproduct rd _, storeWrapped_result_of_lt ha rd _⟩
  by_cases hr : r = rd
  · subst hr
    rw [storeWrapped_reg_same, State.withScl_reg, storeWrapped_reg_same, storeQuotient_reg_same, DecReg.setVal_setVal,
      DecReg.setVal_setVal]
    exact setVal_own _ (Nat.mod_eq_of_lt ha)
  · rw [storeWrapped_reg_ne hr, State.withScl_reg, storeWrapped_reg_ne hr, storeQuotient_reg_ne hr]

/-- Settles O40: the operands are the same integers. -/
theorem scalarFormsAgree : Obligations.ScalarFormsAgree := by
  unfold Obligations.ScalarFormsAgree
  intro rd rs dl imm s
  refine ⟨fun hscl => ?_, fun hone => ?_, fun hle hscl => ⟨?_, ?_⟩, ?_⟩
  · have hadd : execAdd rd rs dl .three s = _ := execAdd_of_lengths (by simp) rd rs s
    exact (hadd.trans (by rw [hscl]; rfl)).symm
  · have hadds : execAdds rd dl s = .next (storeWrapped rd dl (s.val rd dl + s.scl.toNat) s) := rfl
    exact (hadds.trans (by rw [hone]; rfl)).symm
  · exact (execMulp_of_le hle rd dl s).trans (by rw [← hscl]; rfl)
  · have hne : s.scl ≠ 0#32 := by
      intro h0
      rw [h0] at hscl
      exact absurd hscl (Nat.pow_pos (by decide)).ne
    exact (execDivp_of_le hle rd dl s).trans (by rw [← hscl]; exact (execDivs_of_ne hne rd dl).symm)
  · exact execShln_of_le (imm := 1#8) (by decide) rd dl s

end Sys2Proof.Machine
end

section
/-! PROOFS. The rescaler (44_rescale_align.md R130 to R133): RESCALE down, up and to the same scale, and ALIGN as one raise
and, where 96 bits stop it short, one lowering. -/

namespace Sys2Proof.Machine

/-! ### RESCALE (R131) -/

/-- How RESCALE and ALIGN end: RESULT the scale `rd` then has, RND and CAP as the rescale says (R131, R132). -/
def completeRescaled (rd : RegNum) (r : Rescaled) : State :=
  complete rd .three (r.state.scale rd) { rnd := r.rnd, cap := r.cap } r.state

theorem execRescale_of_gt {imm : BitVec 8} (h : 28 < imm.toNat) (rd : RegNum) (s : State) :
    execRescale rd imm s = .next (errorInvalidArgument s) := if_pos h

theorem execRescale_of_le {imm : BitVec 8} (h : imm.toNat ≤ 28) (rd : RegNum) (s : State) :
    execRescale rd imm s = .next (completeRescaled rd (rescaleReg rd imm.toNat s)) := if_neg (Nat.not_lt_of_le h)

/-- The scale of a packed flag word. -/
theorem State.scale_of_flags {t : State} {rd : RegNum} {sg : Bool} {sc : Nat} (h : (t.reg rd).flags = packFlags sg sc)
    (hsc : sc < 256) : t.scale rd = sc := by
  rw [State.scale, h, flagScale_packFlags sg hsc]

@[simp] theorem completeRescaled_reg (rd r : RegNum) (x : Rescaled) : (completeRescaled rd x).reg r = x.state.reg r :=
  complete_reg rd .three _ _ x.state r

@[simp] theorem completeRescaled_val (rd r : RegNum) (n : OpLen) (x : Rescaled) :
    (completeRescaled rd x).val r n = x.state.val r n :=
  complete_val rd .three n _ _ x.state r

/-- The completion when the scale of `rd` is known. -/
theorem completeRescaled_completedWith {rd : RegNum} {x : Rescaled} {sc : Nat} (h : x.state.scale rd = sc) :
    CompletedWith (completeRescaled rd x) rd .three sc false 0 x.rnd x.cap := by
  subst h
  exact complete_completedWith rd .three _ x.state ((State.scale_lt _ rd).trans (by decide))

theorem completeRescaled_othersSame {rd r : RegNum} {s : State} {x : Rescaled} (h : OthersSame r s x.state) :
    OthersSame r s (completeRescaled rd x) :=
  h.trans (complete_othersSame r rd .three _ _ x.state)

/-- Settles O44. -/
theorem rescaleDownRoundsHalfUp : Obligations.RescaleDownRoundsHalfUp := by
  unfold Obligations.RescaleDownRoundsHalfUp
  intro rd imm s hle hlt
  obtain ⟨t, g, hg, hrescale, hval, hflags, hext, hothers⟩ := rescaleReg_down rd imm.toNat s hlt
  have hexec := execRescale_of_le hle rd s
  rw [hrescale] at hexec
  refine ⟨_, g, hexec, hg, ?_, ?_, ?_, completeRescaled_completedWith (State.scale_of_flags hflags imm.isLt),
    completeRescaled_othersSame hothers⟩
  · rw [completeRescaled_val, hval]
  · rw [completeRescaled_val, completeRescaled_reg, hflags]
    exact packFlags_flagWord _ imm.isLt
  · rw [completeRescaled_reg, hext]

/-- Settles O45. -/
theorem rescaleUpKeepsTheValueUntilCapped : Obligations.RescaleUpKeepsTheValueUntilCapped := by
  unfold Obligations.RescaleUpKeepsTheValueUntilCapped
  intro rd imm s hle hlt
  obtain ⟨t, j, hrescale, hj, hval, hmax, hflags, hext, hothers⟩ := rescaleReg_up rd imm.toNat s hlt
  have hexec := execRescale_of_le hle rd s
  rw [hrescale] at hexec
  have hscale : s.scale rd + j < 256 := by omega
  refine ⟨_, j, hexec, hj, ?_, hmax, ?_, ?_, completeRescaled_completedWith (State.scale_of_flags hflags hscale),
    completeRescaled_othersSame hothers⟩
  · rw [completeRescaled_val, hval]
  · rw [completeRescaled_reg, hflags]
    exact packFlags_flagWord _ hscale
  · rw [completeRescaled_reg, hext]

/-- A rescale that keeps the state completes without a register write. -/
theorem completeRescaled_same_spec (rd : RegNum) (s : State) :
    let t := completeRescaled rd { state := s, rnd := false, cap := false }
    NoRegisterWritten s t ∧ CompletedWith t rd .three (s.scale rd) false 0 false false :=
  ⟨complete_noRegisterWritten rd .three _ _ s, completeRescaled_completedWith rfl⟩

/-- Settles O46. -/
theorem rescaleToTheSameScaleOrAboveTheLimit : Obligations.RescaleToTheSameScaleOrAboveTheLimit := by
  unfold Obligations.RescaleToTheSameScaleOrAboveTheLimit
  intro rd imm s
  refine ⟨fun habove => ⟨_, execRescale_of_gt habove rd s, errorInvalidArgument_errorOutcome s⟩, fun hle hsame => ?_⟩
  have hexec := execRescale_of_le hle rd s
  rw [← hsame, rescaleReg_same] at hexec
  rw [← hsame]
  exact ⟨_, hexec, completeRescaled_same_spec rd s⟩

/-! ### ALIGN (R132) -/

/-- Settles O48. -/
theorem alignOfEqualScalesWritesNothing : Obligations.AlignOfEqualScalesWritesNothing := by
  unfold Obligations.AlignOfEqualScalesWritesNothing
  intro rd rs s h
  have hexec : execAlign rd rs s = .next (completeRescaled rd { state := s, rnd := false, cap := false }) := by
    rw [execAlign, if_pos h]
    rfl
  exact ⟨_, hexec, completeRescaled_same_spec rd s⟩

/-- ALIGN of two registers at different scales, whichever of them is RD. -/
theorem execAlign_of_scale_lt {rd rs low high : RegNum} {s : State} (hne : low ≠ high)
    (horder : rd = low ∧ rs = high ∨ rd = high ∧ rs = low) (hlt : s.scale low < s.scale high) :
    execAlign rd rs s = .next (completeRescaled rd (alignRegs low high s)) := by
  obtain ⟨rfl, rfl⟩ | ⟨rfl, rfl⟩ := horder
  · rw [execAlign, if_neg (by simp [hne, hlt.ne]), if_pos hlt]
    rfl
  · rw [execAlign, if_neg (by simp [hne.symm, hlt.ne']), if_neg (Nat.not_lt_of_lt hlt)]
    rfl

/-- What ALIGN's rescales leave, `j` places raised and `g` places lowered, from `s` to `x` (R132). -/
structure AlignedBy (low high : RegNum) (j g : Nat) (s : State) (x : Rescaled) : Prop where
  lowVal : x.state.val low .three = s.val low .three * 10 ^ j
  lowFlags : (x.state.reg low).flags =
    packFlags (decide (s.val low .three ≠ 0) && (s.reg low).flags.getLsbD 31) (s.scale low + j)
  lowExt : (x.state.reg low).ext = (s.reg low).ext
  highKept : g = 0 → x.state.reg high = s.reg high
  highVal : 0 < g → x.state.val high .three = (s.val high .three + 5 * 10 ^ (g - 1)) / 10 ^ g
  highFlags : 0 < g → (x.state.reg high).flags =
    packFlags (decide (x.state.val high .three ≠ 0) && (s.reg high).flags.getLsbD 31) (s.scale low + j)
  highExt : (x.state.reg high).ext = (s.reg high).ext
  rnd : x.rnd = (decide (0 < g) && decide (5 ≤ s.val high .three / 10 ^ (g - 1) % 10))
  cap : x.cap = decide (0 < g)
  frame : ∀ r, r ≠ low → r ≠ high → x.state.reg r = s.reg r
  scl : x.state.scl = s.scl
  faultcmd : x.state.faultcmd = s.faultcmd
  status : x.state.status.extractLsb' 11 21 = s.status.extractLsb' 11 21
  host : SameHost s x.state

/-- The raise goes to the other scale or as far as 96 bits allow; what is missing is taken off the other register. -/
theorem alignRegs_alignedBy {low high : RegNum} {s : State} (hne : low ≠ high) (hlt : s.scale low < s.scale high) :
    ∃ j g, s.scale low + j + g = s.scale high ∧ (g = 0 ∨ 2 ^ 96 ≤ s.val low .three * 10 ^ (j + 1)) ∧
      AlignedBy low high j g s (alignRegs low high s) := by
  have h256 := State.scale_lt s high
  obtain ⟨up, j, hrescale, hj, hval, hmax, hflags, hext, hregs, hscl, hfaultcmd, hstatus, hhost⟩ :=
    rescaleReg_up low (s.scale high) s hlt
  have hhigh : up.reg high = s.reg high := hregs high hne.symm
  have hhighScale : up.scale high = s.scale high := by rw [State.scale, hhigh]; rfl
  have hhighVal : up.val high .three = s.val high .three := by rw [State.val, hhigh]; rfl
  have hlowScale : up.scale low = s.scale low + j := State.scale_of_flags hflags (by omega)
  unfold alignRegs
  simp only [hrescale, hlowScale, hhighScale]
  obtain hreached | hshort := hj.eq_or_lt
  · refine ⟨j, 0, hreached, .inl rfl, ?_⟩
    rw [if_neg (by omega)]
    exact { lowVal := hval, lowFlags := hflags, lowExt := hext, highKept := fun _ => hhigh
            highVal := fun h0 => absurd h0 (Nat.lt_irrefl 0), highFlags := fun h0 => absurd h0 (Nat.lt_irrefl 0)
            highExt := congrArg DecReg.ext hhigh, rnd := by simp, cap := by simp [hreached]
            frame := fun r hr _ => hregs r hr, scl := hscl, faultcmd := hfaultcmd, status := hstatus, host := hhost }
  · obtain ⟨down, g, hg, hrescale', hval', hflags', hext', hregs', hscl', hfaultcmd', hstatus', hhost'⟩ :=
      rescaleReg_down high (s.scale low + j) up (hhighScale.symm ▸ hshort)
    rw [hhighScale] at hg
    rw [hhighVal] at hrescale' hval'
    rw [hhigh] at hflags' hext'
    have hlow : down.reg low = up.reg low := hregs' low hne
    have hpos : 0 < g := by omega
    refine ⟨j, g, by omega, .inr (hmax.resolve_left hshort.ne), ?_⟩
    rw [if_pos hshort, hrescale']
    exact { lowVal := (congrArg (fun d => DecReg.val d .three) hlow).trans hval
            lowFlags := by rw [hlow, hflags], lowExt := by rw [hlow, hext]
            highKept := fun h0 => absurd h0 hpos.ne', highVal := fun _ => hval', highFlags := fun _ => hflags'
            highExt := hext', rnd := by simp [hpos], cap := by simp [hpos, hshort]
            frame := fun r hr hr' => (hregs' r hr').trans (hregs r hr), scl := hscl'.trans hscl
            faultcmd := hfaultcmd'.trans hfaultcmd, status := hstatus'.trans hstatus
            host := ⟨hhost'.1.trans hhost.1, hhost'.2.1.trans hhost.2.1, hhost'.2.2.trans hhost.2.2⟩ }

/-- Both registers end at the scale reached. -/
theorem AlignedBy.scale_eq {low high : RegNum} {j g : Nat} {s : State} {x : Rescaled} (h : AlignedBy low high j g s x)
    (hsum : s.scale low + j + g = s.scale high) :
    x.state.scale low = s.scale low + j ∧ x.state.scale high = s.scale low + j := by
  have h256 := State.scale_lt s high
  refine ⟨State.scale_of_flags h.lowFlags (by omega), ?_⟩
  obtain rfl | hpos := Nat.eq_zero_or_pos g
  · rw [State.scale, h.highKept rfl]
    exact hsum.symm
  · exact State.scale_of_flags (h.highFlags hpos) (by omega)

/-- Settles O47: `alignRegs_alignedBy` says what the rescales leave, and the completion adds RESULT and the flags. -/
theorem alignBringsBothToOneScale : Obligations.AlignBringsBothToOneScale := by
  unfold Obligations.AlignBringsBothToOneScale
  intro rd rs low high s hne horder hlt
  obtain ⟨j, g, hsum, hmax, h⟩ := alignRegs_alignedBy hne hlt
  have h256 := State.scale_lt s high
  have hscale : s.scale low + j < 256 := by omega
  obtain ⟨hlow, hhigh⟩ := h.scale_eq hsum
  have hdone : (alignRegs low high s).state.scale rd = s.scale low + j := by
    obtain ⟨rfl, -⟩ | ⟨rfl, -⟩ := horder
    · exact hlow
    · exact hhigh
  have hcompleted := completeRescaled_completedWith hdone
  rw [h.rnd, h.cap] at hcompleted
  refine ⟨_, j, g, execAlign_of_scale_lt hne horder hlt, hsum, ?_, hmax, ?_, fun h0 => ?_, fun hpos => ⟨?_, ?_⟩, ?_, ?_, ?_,
    hcompleted, fun r hr hr' => ?_, h.scl, h.faultcmd, ?_, h.host⟩
  · rw [completeRescaled_val, h.lowVal]
  · rw [completeRescaled_reg, h.lowFlags]
    exact packFlags_flagWord _ hscale
  · rw [completeRescaled_reg, h.highKept h0]
  · rw [completeRescaled_val, h.highVal hpos]
  · rw [completeRescaled_reg, completeRescaled_val, h.highFlags hpos]
    exact packFlags_flagWord _ hscale
  · rw [State.scale, State.scale, completeRescaled_reg, completeRescaled_reg]
    exact hlow.trans hhigh.symm
  · rw [completeRescaled_reg, h.lowExt]
  · rw [completeRescaled_reg, h.highExt]
  · rw [completeRescaled_reg, h.frame r hr hr']
  · exact (withLow_extract_high _ _).trans h.status

end Sys2Proof.Machine
end

section
/-! PROOFS. What ROUND means as numbers (45_round.md R140 to R142), and that rounding half away from zero is RESCALE
(44_rescale_align.md R133). -/

namespace Sys2Proof.Machine

/-! ### The rounded value -/

/-- A magnitude with its sign. -/
def signedInt (neg : Bool) (m : Nat) : Int := if neg then -(m : Int) else (m : Int)

@[simp] theorem abs_signedInt (neg : Bool) (m : Nat) : |signedInt neg m| = (m : Int) := by
  cases neg <;> simp [signedInt]

/-- A sign that is dropped for a zero magnitude makes no difference. -/
theorem signedInt_clear_zero (neg : Bool) (m : Nat) : signedInt (decide (m ≠ 0) && neg) m = signedInt neg m := by
  by_cases h : m = 0 <;> simp [signedInt, h]

theorem signedInt_mul (neg : Bool) (m u : Nat) : signedInt neg m * (u : Int) = signedInt neg (m * u) := by
  cases neg <;> simp [signedInt]

theorem signedInt_emod_two (neg : Bool) (m : Nat) : signedInt neg m % 2 = 0 ↔ m % 2 = 0 := by
  cases neg <;> simp only [signedInt, Bool.false_eq_true, if_true, if_false] <;> omega

theorem State.signedMantissa_eq (s : State) (rd : RegNum) :
    s.signedMantissa rd = signedInt ((s.reg rd).flags.getLsbD 31) (s.val rd .three) := rfl

/-- The strategies' bounds of R140 on the rounded value `W` of `V` in units of `u`. -/
def RoundedTo (strat : Strategy) (u V W : Int) : Prop :=
  match strat with
  | .midpointNearestEven => 2 * |W * u - V| ≤ u ∧ (2 * |W * u - V| = u → W % 2 = 0)
  | .midpointAwayFromZero => 2 * |W * u - V| ≤ u ∧ (2 * |W * u - V| = u → |V| < |W * u|)
  | .midpointTowardZero => 2 * |W * u - V| ≤ u ∧ (2 * |W * u - V| = u → |W * u| < |V|)
  | .toZero => |W * u| ≤ |V| ∧ |V| - |W * u| < u
  | .awayFromZero => |V| ≤ |W * u| ∧ |W * u| - |V| < u
  | .toPositiveInfinity => V ≤ W * u ∧ W * u - V < u
  | .toNegativeInfinity => W * u ≤ V ∧ V - W * u < u

/-- The signed distance from the exact value: what is added by rounding up, or the remainder that is dropped. -/
theorem rounding_error (neg up : Bool) (q r u : Nat) (hr : r < u) :
    signedInt neg (q + if up then 1 else 0) * (u : Int) - signedInt neg (u * q + r) =
      signedInt (neg == up) (if up then u - r else r) := by
  rw [signedInt_mul, Nat.add_mul, Nat.mul_comm q u]
  cases up with
  | false => cases neg <;> simp [signedInt]
  | true =>
    have hsub : ((u - r : Nat) : Int) = u - r := Int.ofNat_sub hr.le
    cases neg <;> simp [signedInt, hsub]
    omega

/-- The truncated magnitude with the rule's increment is the value the strategy names. -/
theorem roundedTo_of_rule {strat : Strategy} {neg up : Bool} {q r u : Nat} (hr : r < u)
    (hup : up = true ↔ RoundUpRule strat neg q r u) :
    RoundedTo strat u (signedInt neg (u * q + r)) (signedInt neg (q + if up then 1 else 0)) := by
  have herror := rounding_error neg up q r u hr
  have habs : |signedInt neg (q + if up then 1 else 0) * (u : Int) - signedInt neg (u * q + r)| =
      ((if up then u - r else r : Nat) : Int) := by
    rw [herror, abs_signedInt]
  have hw : |signedInt neg (q + if up then 1 else 0) * (u : Int)| = ((u * q + if up then u else 0 : Nat) : Int) := by
    rw [signedInt_mul, abs_signedInt, Nat.add_mul, Nat.mul_comm q u]
    cases up <;> simp
  have hv : |signedInt neg (u * q + r)| = ((u * q + r : Nat) : Int) := abs_signedInt _ _
  generalize hP : u * q = P at *
  cases strat with
  | midpointNearestEven =>
    simp only [RoundedTo, RoundUpRule, habs, signedInt_emod_two] at hup ⊢
    cases up <;> simp at hup ⊢ <;> omega
  | midpointAwayFromZero | midpointTowardZero | toZero | awayFromZero =>
    simp only [RoundedTo, RoundUpRule, habs, hw, hv] at hup ⊢
    cases up <;> simp at hup ⊢ <;> omega
  | toPositiveInfinity | toNegativeInfinity =>
    rw [sub_eq_iff_eq_add] at herror
    simp only [RoundedTo, RoundUpRule, herror] at hup ⊢
    cases up <;> cases neg <;> simp [signedInt] at hup ⊢ <;> omega

/-- Settles O50: `roundFollowsTheStrategy` gives the magnitude and the sign, `roundedTo_of_rule` what they mean. -/
theorem roundedValueIsTheOneTheStrategyNames : Obligations.RoundedValueIsTheOneTheStrategyNames := by
  unfold Obligations.RoundedValueIsTheOneTheStrategyNames
  intro rd imm strat s t hdropped hexec
  obtain ⟨t', u, up, hstep, hu, hup, hval, ⟨hsign, -⟩, -⟩ := (roundFollowsTheStrategy rd imm strat s).2 hdropped
  obtain ⟨⟩ := hstep.symm.trans hexec
  have hpos : 0 < u := hu ▸ Nat.pow_pos (by decide)
  have hrounded := roundedTo_of_rule (Nat.mod_lt (s.val rd .three) hpos) hup
  rw [Nat.div_add_mod, ← hval] at hrounded
  refine ⟨u, _, _, by rw [hu]; simp, rfl, rfl, ?_⟩
  rw [State.signedMantissa_eq, State.signedMantissa_eq, hsign, signedInt_clear_zero]
  cases strat <;> exact hrounded

/-! ### ROUND half away from zero is RESCALE -/

/-- STATUS with new low bits depends on the high bits alone. -/
theorem withLow_congr {w w' : Word} (h : w'.extractLsb' 11 21 = w.extractLsb' 11 21) (low : BitVec 11) :
    withLow w' low = withLow w low := by
  apply BitVec.eq_of_getLsbD_eq
  intro k hk
  obtain hlow | hhigh := Nat.lt_or_ge k 11
  · rw [withLow_getLsbD_low _ _ hlow, withLow_getLsbD_low _ _ hlow]
  · rw [withLow_getLsbD_high _ _ hhigh, withLow_getLsbD_high _ _ hhigh]
    simpa [show k - 11 < 21 by omega, Nat.add_sub_cancel' hhigh] using congrArg (fun v => v.getLsbD (k - 11)) h

/-- A completion makes two states equal that agree on everything it does not write. -/
theorem complete_congr {b t : State} {rd : RegNum} (hothers : OthersSame rd b t) (hreg : t.reg rd = b.reg rd) (n : OpLen)
    (v : Nat) (f : CompletionFlags) : complete rd n v f t = complete rd n v f b := by
  obtain ⟨hregs, hscl, hfaultcmd, hstatus, hbase, hpending, hresponses⟩ := hothers
  have hall (r : RegNum) : t.reg r = b.reg r := by
    by_cases hr : r = rd
    · rw [hr, hreg]
    · exact hregs r hr
  have hzero : t.isAllZero rd n = b.isAllZero rd n := by
    rw [State.isAllZero, State.isAllZero, State.val, State.val, hreg]
  have h0 : t.v0 = b.v0 := hall .v0
  have h1 : t.v1 = b.v1 := hall .v1
  have h2 : t.v2 = b.v2 := hall .v2
  have h3 : t.v3 = b.v3 := hall .v3
  rw [complete, complete, hzero, withLow_congr hstatus]
  simp only [h0, h1, h2, h3, hscl, hfaultcmd, hbase, hpending, hresponses]

theorem OthersSame.symm {rd : RegNum} {s t : State} (h : OthersSame rd s t) : OthersSame rd t s := by
  obtain ⟨hregs, hscl, hfaultcmd, hstatus, hbase, hpending, hresponses⟩ := h
  exact ⟨fun r hr => (hregs r hr).symm, hscl.symm, hfaultcmd.symm, hstatus.symm, hbase.symm, hpending.symm,
    hresponses.symm⟩

/-- The remainder is at least half a unit exactly when the leading dropped digit is 5 or more. -/
theorem half_le_mod_iff (m k : Nat) : 5 * 10 ^ k ≤ m % 10 ^ (k + 1) ↔ 5 ≤ m / 10 ^ k % 10 := by
  rw [← Nat.mod_mul_right_div_self, ← Nat.pow_succ, Nat.le_div_iff_mul_le (Nat.pow_pos (by decide))]

/-- ROUND half away from zero drops digits as RESCALE does: same increment, same mantissa. -/
theorem State.roundUpBit_midpointAwayFromZero {s : State} {rd : RegNum} {p k : Nat} (hk : s.scale rd - p = k + 1) :
    s.roundUpBit rd p .midpointAwayFromZero = decide (5 ≤ s.val rd .three / 10 ^ k % 10) := by
  simp only [State.roundUpBit, hk, roundsUp, halfUnit, Nat.add_sub_cancel, half_le_mod_iff]

theorem State.roundedMantissa_midpointAwayFromZero {s : State} {rd : RegNum} {p k : Nat} (hk : s.scale rd - p = k + 1) :
    s.roundedMantissa rd p .midpointAwayFromZero = (s.val rd .three + 5 * 10 ^ k) / 10 ^ (k + 1) := by
  rw [State.roundedMantissa, State.roundUpBit_midpointAwayFromZero hk, hk, half_up_closed]
  simp

/-- Settles O51: both leave the same register, and the completion makes the states equal. -/
theorem roundHalfAwayIsRescale : Obligations.RoundHalfAwayIsRescale := by
  unfold Obligations.RoundHalfAwayIsRescale
  intro rd imm s hle hlt
  obtain ⟨t, g, hg, hrescale, hval, hflags, hext, hothers⟩ := rescaleReg_down rd imm.toNat s hlt
  obtain ⟨k, rfl⟩ : ∃ k, g = k + 1 := ⟨g - 1, by omega⟩
  have hround := execRound_of_lt hlt .midpointAwayFromZero
  have hfits := State.roundedMantissa_lt hlt .midpointAwayFromZero
  rw [State.roundedMantissa_midpointAwayFromZero hg.symm] at hround hfits
  rw [State.roundUpBit_midpointAwayFromZero hg.symm] at hround
  rw [Nat.add_sub_cancel] at hval hrescale
  have hexec := execRescale_of_le hle rd s
  rw [hrescale, completeRescaled, State.scale_of_flags hflags imm.isLt] at hexec
  rw [← hval] at hround hfits
  refine hround.trans (Eq.trans ?_ hexec.symm)
  congr 1
  refine complete_congr (hothers.symm.trans (State.setVal_setFs_othersSame s rd _ _ _)) ?_ .three imm.toNat _
  rw [State.setFs_reg_same, State.setVal_reg_same]
  refine DecReg.eq_of_val_eq (n := .three) hflags.symm (fun _ => hext.symm) ?_
  exact DecReg.val_setVal (s.reg rd) .three hfits

end Sys2Proof.Machine
end
